-- ==== Sys2Proof/Word.lean ====
section
/-! DEFINITION. The widths of the words the block moves and computes with (R6, R23). -/

namespace Sys2Proof

/-- A command word or a response word: 64 bits (R6 CMD_WIDTH and RSP_WIDTH, R58, R66). -/
abbrev Word64 := BitVec 64

/-- A group of up to four bytes as one big-endian number of 32 bits (R11, R43). -/
abbrev GroupWord := BitVec 32

/-- A digit field: 7 bits, of which 0 to 84 are digits and 85 to 127 invalid digits (R6 DIGIT_WIDTH, R63). -/
abbrev Digit := BitVec 7

/-- A count or position field of a word: 3 bits (R58, R66). -/
abbrev Count := BitVec 3

/-- A payload field of a word: 35 bits (R58, R66). -/
abbrev Payload := BitVec 35

/-- A byte of a buffer; only the host wrapper (R52, R54) handles single bytes. -/
abbrev Byte := BitVec 8

end Sys2Proof
end

