-- ==== Sys2Proof/Config.lean ====
section
/-! DEFINITION. The fixed parameters of R6, the host's side of the input ports (R17), and the one free value. -/

namespace Sys2Proof

/-- What the host drives on the four input ports at one rising edge of `clk` (R17).
A port of width 1 is a `Bool`: it holds 0 or 1 at every edge (D41; log entry 9). -/
structure Pins where
  rst      : Bool
  cmdValid : Bool
  cmdData  : Word64
  rspReady : Bool
  deriving DecidableEq, Repr, Inhabited

namespace Config

/-- RADIX (R6). -/
def radix : Nat := 85

/-- VMAX, the largest value of a group: 2^32 − 1 (R6). -/
def vMax : Nat := 4294967295

/-- DIGIT_MAX, the largest value of a valid digit (R6, R63). -/
def digitMax : Nat := 84

/-- PAD_DIGIT, the digit that stands in the missing places of a short DEC group (R6, R98, R107). -/
def padDigit : Digit := 84

/-- FREE VALUE: what the host drives at an edge for which State lists nothing, by the number of such edges before it.
It has no body, so a statement that reads it holds whatever the host does (log entry 2). -/
opaque freePins : Nat → Pins

end Config
end Sys2Proof
end

