-- ==== Sys2Proof/Syntax.lean ====
section
/-! DEFINITION. The commands: one constructor per row of spec/opcode_table.json. -/

namespace Sys2Proof

/-- Five 7-bit digit places, `d0` the most significant (R10, R44, R62).
The type of DEC's operands and of the registers DIG[0..4] (R30). -/
structure Digits where
  d0 : Digit
  d1 : Digit
  d2 : Digit
  d3 : Digit
  d4 : Digit
  deriving DecidableEq, Repr

/-- A command that matches a row of the opcode table (R71).
The count is an operand like any other: R71 has it "checked separately (rule R60)", so a count the block answers with an
error is still a command one can write (R75); `Instr.WellFormed` says which counts the table calls legal. -/
inductive Instr where
  /-- `ENC n, v`: encode one group of n bytes (R78). -/
  | enc (n : Count) (v : GroupWord)
  /-- `DEC k, d0, d1, d2, d3, d4`: decode k digits (R93). -/
  | dec (k : Count) (d : Digits)
  deriving DecidableEq, Repr

end Sys2Proof
end

