-- ==== Sys2Proof/Decode.lean ====
section
/-! DEFINITION. From a command word to a command and back (R58 to R65, R71 to R74). -/

namespace Sys2Proof

/-! ### The fields of a command word -/

/-- `op`, bits [63:62] (R58, R59). -/
def cmdOp (c : Word64) : BitVec 2 := c.extractLsb 63 62

/-- `cnt`, bits [61:59] (R58, R60). -/
def cmdCnt (c : Word64) : Count := c.extractLsb 61 59

/-- `cmd.data`, bits [31:0] (R64). -/
def cmdDataField (c : Word64) : GroupWord := c.extractLsb 31 0

/-- The digit fields `cmd.d[i] = cmd[34−7i : 28−7i]` of a 64-bit word (R62; a response uses the same places, R70). -/
def digitFields (c : Word64) : Digits :=
  { d0 := c.extractLsb 34 28
    d1 := c.extractLsb 27 21
    d2 := c.extractLsb 20 14
    d3 := c.extractLsb 13 7
    d4 := c.extractLsb 6 0 }

/-! ### The opcode map -/

/-- ENC's match word (R71). -/
def encMatch : Word64 := 0x0000000000000000

/-- ENC's mask: op and the reserved bits [58:32] (R61, R71). -/
def encMask : Word64 := 0xC7FFFFFF00000000

/-- DEC's match word (R71). -/
def decMatch : Word64 := 0x4000000000000000

/-- DEC's mask: op and the reserved bits [58:35] (R61, R71). -/
def decMask : Word64 := 0xC7FFFFF800000000

/-- Why a word is no command of the table; the block answers either with ILLEGAL_CMD (R72, R118). -/
inductive DecodeError where
  /-- op = 10 or 11 (R59). -/
  | reservedOp
  /-- a reserved bit is 1 (R61). -/
  | reservedBits
  deriving DecidableEq, Repr

/-- Selects the operation of a command word by R71's match and mask, the fields as plain unsigned numbers (R73).
The count is not looked at here: R71 has it checked separately (log entry 7). -/
def decode (c : Word64) : Except DecodeError Instr :=
  if c &&& encMask = encMatch then .ok (.enc (cmdCnt c) (cmdDataField c))
  else if c &&& decMask = decMatch then .ok (.dec (cmdCnt c) (digitFields c))
  else if 2 ≤ (cmdOp c).toNat then .error .reservedOp
  else .error .reservedBits

/-! ### The encoder of words -/

/-- Five digits as a 35-bit payload, d[0] at [34:28] (R44, R62, R70). -/
def packDigits (d : Digits) : Payload := d.d0 ++ d.d1 ++ d.d2 ++ d.d3 ++ d.d4

/-- The word of a command, every reserved bit 0 (R65's formats E and D, R75). -/
def encode (i : Instr) : Word64 :=
  match i with
  | .enc n v => 0#2 ++ n ++ 0#27 ++ v
  | .dec k d => 1#2 ++ k ++ 0#24 ++ packDigits d

/-- The host's numbering: a command is one 64-bit word, so the table's bits are the word's bits (R58, R74). -/
def wordOfTable (nbits w : Nat) : Word64 := BitVec.ofNat 64 (w % 2 ^ nbits)

/-- The command the decoder reads from a word given in the opcode table's numbering; none where it is no row's word. -/
def decodeTableWord (nbits w : Nat) : Option Instr :=
  match decode (wordOfTable nbits w) with
  | .ok i => some i
  | .error _ => none

end Sys2Proof
end

