-- ==== Sys2Proof/Machine/Operands.lean ====
section
/-! DEFINITION. The operand forms: digit places, byte masks, padded digits, and the values they stand for (R10 to R12). -/

namespace Sys2Proof

/-- Place i of five digit places, 0 the most significant (R10). -/
def Digits.get (d : Digits) (i : Fin 5) : Digit :=
  match i with
  | 0 => d.d0
  | 1 => d.d1
  | 2 => d.d2
  | 3 => d.d3
  | 4 => d.d4

/-- Five digit places with place i written. -/
def Digits.set (d : Digits) (i : Fin 5) (x : Digit) : Digits :=
  match i with
  | 0 => { d with d0 := x }
  | 1 => { d with d1 := x }
  | 2 => { d with d2 := x }
  | 3 => { d with d3 := x }
  | 4 => { d with d4 := x }

/-- Five digit places given place by place. -/
def Digits.ofFn (f : Fin 5 → Digit) : Digits :=
  { d0 := f 0, d1 := f 1, d2 := f 2, d3 := f 3, d4 := f 4 }

/-- `val(d) = Σ d[i] × 85^(4−i)` (R10), on natural numbers (R9). -/
def Digits.val (d : Digits) : Nat :=
  d.d0.toNat * Config.radix ^ 4 + d.d1.toNat * Config.radix ^ 3 + d.d2.toNat * Config.radix ^ 2
    + d.d3.toNat * Config.radix + d.d4.toNat

namespace Machine

/-- `MASK(n)`, n in 1..4: the mask that keeps the first n bytes of a group (R12). -/
def byteMask (n : Nat) : GroupWord := BitVec.ofNat 32 ((2 ^ 32 - 1) - (2 ^ (32 - 8 * n) - 1))

/-- `v' = cmd.data & MASK(n)`: the n real bytes, 0x00 in the place of the others (R80). -/
def realBytes (n : Count) (v : GroupWord) : GroupWord := v &&& byteMask n.toNat

/-- The digits with `fill` in the missing places k..4 (R98 with `fill` = 84). -/
def padDigitsWith (fill : Digit) (k : Count) (d : Digits) : Digits :=
  Digits.ofFn fun i => if i.val < k.toNat then d.get i else fill

/-- The effective digits of a DEC command: 84 in the missing places (R98). -/
def effectiveDigits (k : Count) (d : Digits) : Digits := padDigitsWith Config.padDigit k d

/-- The digits with 0 in the places above n: an ENC response transmits only the first n + 1 (R83). -/
def keptDigits (n : Count) (d : Digits) : Digits :=
  Digits.ofFn fun i => if i.val ≤ n.toNat then d.get i else 0

/-- The places of five, most significant first. -/
def places : List (Fin 5) := [0, 1, 2, 3, 4]

/-- Place i is an input digit (i < k) whose value is above 84 (R63, R96). -/
def invalidAt (k : Count) (d : Digits) (i : Fin 5) : Bool := i.val < k.toNat && Config.digitMax < (d.get i).toNat

/-- The lowest place i < k whose digit is above 84, if there is one (R96, R115). -/
def firstInvalid (k : Count) (d : Digits) : Option (Fin 5) := places.find? (invalidAt k d)

/-- STEP as the place a micro-step works on: 0 to 4, and none for a STEP no micro-step is given for (R82, R99). -/
def stepPlace (x : BitVec 3) : Option (Fin 5) :=
  if h : x.toNat < 5 then some ⟨x.toNat, h⟩ else none

/-- CNT is a legal count of OP: 1..4 for ENC, 2..5 for DEC (R26). -/
def cntFits (op : BitVec 1) (n : Count) : Bool :=
  if op = 0 then 1 ≤ n.toNat && n.toNat ≤ 4 else 2 ≤ n.toNat && n.toNat ≤ 5

end Machine
end Sys2Proof
end

