-- ==== Sys2Proof/Machine/Flags.lean ====
section
/-! DEFINITION. The status of a response, the block's only condition indication (R33, R67, R114), and how it is decided at
acceptance (R120). -/

namespace Sys2Proof.Machine

/-- The status codes that are ever produced (R67, R114). -/
inductive Status where
  | ok
  | invalidDigit
  | truncated
  | overflow
  | illegalCmd
  deriving DecidableEq, Repr

/-- The code of a status in bits [63:61] of a response (R67). -/
def Status.code (s : Status) : BitVec 3 :=
  match s with
  | .ok => 0
  | .invalidDigit => 1
  | .truncated => 2
  | .overflow => 3
  | .illegalCmd => 4

/-- The status a code stands for; 5, 6 and 7 are never produced (R67). -/
def Status.ofCode (x : BitVec 3) : Option Status :=
  match x.toNat with
  | 0 => some .ok
  | 1 => some .invalidDigit
  | 2 => some .truncated
  | 3 => some .overflow
  | 4 => some .illegalCmd
  | _ => none

/-- `check(c)` for a word with op = 00 and no reserved bit set: the count decides (R79, R120). -/
def encCheck (n : Count) : Status × Count :=
  if 1 ≤ n.toNat ∧ n.toNat ≤ 4 then (.ok, 0) else (.illegalCmd, 0)

/-- `check(c)` for a word with op = 01 and no reserved bit set: the count, then the digits from place 0, then k = 1
(R95, R96, R97, R120). -/
def decCheck (k : Count) (d : Digits) : Status × Count :=
  if 1 ≤ k.toNat ∧ k.toNat ≤ 5 then
    match firstInvalid k d with
    | some i => (.invalidDigit, BitVec.ofNat 3 i.val)
    | none => if k = 1 then (.truncated, 0) else (.ok, 0)
  else (.illegalCmd, 0)

/-- `check(c)` of a command (R120). -/
def checkInstr (i : Instr) : Status × Count :=
  match i with
  | .enc n _ => encCheck n
  | .dec k d => decCheck k d

/-- `check(c)` of any command word: a word of no row is ILLEGAL_CMD (R118, R120). -/
def check (c : Word64) : Status × Count :=
  match decode c with
  | .ok i => checkInstr i
  | .error _ => (.illegalCmd, 0)

end Sys2Proof.Machine
end

