-- ==== Sys2Proof/Machine/State.lean ====
section
/-! DEFINITION. The registers of the block (R23), what the host will drive, and the reasons a step can stop. -/

namespace Sys2Proof.Machine

/-- PHASE (R24): three values, so the bit encoding 3 cannot be represented. -/
inductive Phase where
  /-- No command is in flight and a command may be accepted. -/
  | idle
  /-- A computing command is being worked on, one micro-step per cycle. -/
  | busy
  /-- RSP holds a response that has not yet transferred. -/
  | done
  deriving DecidableEq, Repr

/-- The block's registers (R23, "exactly these registers") and, last, the host's side of the input ports. -/
structure State where
  /-- PHASE (R24). -/
  phase : Phase
  /-- OP: 0 for an encoder command, 1 for a decoder command (R25). -/
  op    : BitVec 1
  /-- CNT: n or k of the command in flight (R26). -/
  cnt   : Count
  /-- STEP: micro-steps done (R29). -/
  step  : BitVec 3
  /-- Q: the encoder's quotient (R27). -/
  q     : BitVec 32
  /-- ACC: the decoder's Horner accumulator (R28). -/
  acc   : BitVec 33
  /-- DIG[0..4] (R30). -/
  dig   : Digits
  /-- RSP: the response register (R31). -/
  rsp   : Word64
  /-- The model's own: what the host drives at the coming edges, the next edge first (R17; log entry 2). -/
  host  : List Pins
  /-- The model's own: how many edges took their pins from `Config.freePins` (log entry 2). -/
  drawn : Nat
  deriving DecidableEq, Repr

/-- Why the machine can stop. Each is safe (the model stops where the spec gives no effect), and none is reached from
a state right after a reset edge: the block itself raises no exception (R113). -/
inductive Fault where
  /-- Raised by a BUSY edge with STEP above 4: ENC_STEP and DEC_STEP are given for STEP 0 to 4 (R82, R99). Safe (log entry 4). -/
  | stepOutOfRange
  /-- Raised by the fifth BUSY edge when CNT is no legal count of OP: MASK and the response count have no meaning there
  (R12, R26). Safe (log entry 5). -/
  | cntOutOfRange
  /-- Raised by DEC_STEP when the exact value does not fit the 33-bit ACC (R99: "never wraps"). Safe (log entry 6). -/
  | accOutOfRange
  deriving DecidableEq, Repr

/-- Why a command can be without a meaning. -/
inductive Refusal where
  /-- Raised by an arm of exec for a command not modelled yet. Safe. No arm raises it: both commands have their meaning. -/
  | notModelled (mnemonic : String)
  deriving DecidableEq, Repr

/-- Five zero digits, DIG's reset value (R38). -/
def zeroDigits : Digits := { d0 := 0, d1 := 0, d2 := 0, d3 := 0, d4 := 0 }

/-- The machine right after a reset edge (R38), with nothing known of what the host will drive. -/
def State.reset : State :=
  { phase := .idle, op := 0, cnt := 0, step := 0, q := 0, acc := 0, dig := zeroDigits, rsp := 0
    host := [], drawn := 0 }

end Sys2Proof.Machine
end

