-- ==== Sys2Proof/Machine/Ops.lean ====
section
/-! DEFINITION. The operations the meanings share: building and reading a response word, answering, the output ports, a reset
edge, taking the pins of an edge. -/

namespace Sys2Proof.Machine

/-! ### The response word -/

/-- The word `respond(s, oc, ep, pl)` builds: `{s, oc, ep, 20'b0, pl}` (R66). -/
def respond (s : Status) (oc ep : Count) (pl : Payload) : Word64 := s.code ++ oc ++ ep ++ 0#20 ++ pl

/-- The response to an error with status s and position p: no unit, no payload (R121). -/
def errorWord (s : Status) (p : Count) : Word64 := respond s 0 p 0

/-- The response of a successful ENC: n + 1 digits, the places above n driven to 0 (R68, R70, R83). -/
def encWord (n : Count) (d : Digits) : Word64 := respond .ok (n + 1) 0 (packDigits (keptDigits n d))

/-- The response of DEC to the effective value: OVERFLOW above 2^32 − 1, else the first k − 1 bytes (R101, R102). -/
def decWord (k : Count) (value : Nat) : Word64 :=
  if Config.vMax < value then errorWord .overflow 0
  else respond .ok (k - 1) 0 ((BitVec.ofNat 32 value &&& byteMask (k.toNat - 1)).setWidth 35)

/-- `status`, bits [63:61] (R66). -/
def rspStatus (r : Word64) : BitVec 3 := r.extractLsb 63 61

/-- `ocnt`, bits [60:58] (R66, R68). -/
def rspOcnt (r : Word64) : Count := r.extractLsb 60 58

/-- `epos`, bits [57:55] (R66, R69). -/
def rspEpos (r : Word64) : Count := r.extractLsb 57 55

/-- The bits [54:35] of a response, always 0 (R66). -/
def rspZero (r : Word64) : BitVec 20 := r.extractLsb 54 35

/-- The payload, bits [34:0] (R66). -/
def rspPayload (r : Word64) : Payload := r.extractLsb 34 0

/-- The data of a DEC response, bits [31:0] (R43, R70). -/
def rspDataField (r : Word64) : GroupWord := r.extractLsb 31 0

/-! ### Answering -/

/-- `respond`: RSP takes the word and PHASE becomes DONE (R13). -/
def answer (w : Word64) (s : State) : State := { s with rsp := w, phase := .done }

/-- The one way the block reports an error: there is no trap entry, no saved state and no vector, only the response
(R113, R121, R126). -/
def answerError (st : Status) (p : Count) (s : State) : State := answer (errorWord st p) s

/-- After the response has transferred the block is in IDLE; nothing else is undone or restored (R37, R123, R126). -/
def takeResponse (s : State) : State := { s with phase := .idle }

/-! ### Output ports -/

/-- `cmd_ready` (R20). -/
def cmdReady (rst : Bool) (s : State) : Bool := s.phase = .idle && !rst

/-- `rsp_valid` (R21). -/
def rspValid (rst : Bool) (s : State) : Bool := s.phase = .done && !rst

/-- `rsp_data` always equals RSP (R21). -/
def rspData (s : State) : Word64 := s.rsp

/-- A command transfers at an edge with these pins (R18). -/
def cmdTransfers (p : Pins) (s : State) : Bool := !p.rst && p.cmdValid && cmdReady p.rst s

/-- A response transfers at an edge with these pins (R19). -/
def rspTransfers (p : Pins) (s : State) : Bool := !p.rst && rspValid p.rst s && p.rspReady

/-! ### Reset and the pins of an edge -/

/-- A reset edge: every register takes its reset value, whatever the phase (R38, R130). -/
def applyReset (s : State) : State := { State.reset with host := s.host, drawn := s.drawn }

/-- What the host drives at the next edge: the head of the list, else a free value (R17; log entry 2). -/
def pinsNow (s : State) : Pins :=
  match s.host with
  | p :: _ => p
  | [] => Config.freePins s.drawn

/-- The pins of the next edge are taken; no register changes. -/
def advance (s : State) : State :=
  match s.host with
  | _ :: ps => { s with host := ps }
  | [] => { s with drawn := s.drawn + 1 }

/-- The pins of an edge at which the host offers command word c: `rst` = 0, `cmd_valid` = 1.
`rsp_ready` has no effect at an edge where a command transfers (R19, R37). -/
def offerPins (c : Word64) : Pins := { rst := false, cmdValid := true, cmdData := c, rspReady := false }

/-- The block in IDLE, with c offered at the next edge and the host's list after it (log entry 3). -/
def offerCommand (c : Word64) (s : State) : State :=
  { s with phase := .idle, host := offerPins c :: s.host }

end Sys2Proof.Machine
end

