-- ==== Sys2Proof/Machine/Decoder.lean ====
section
/-! DEFINITION. The decoder family, base85_group_decoder: DEC (41_decoder.md). -/

namespace Sys2Proof.Machine

/-- DEC_INIT (R98). Q is not written. -/
def decInit (k : Count) (d : Digits) (s : State) : State :=
  { s with op := 1, cnt := k, dig := effectiveDigits k d, acc := 0, step := 0, phase := .busy }

/-- The exact value of a Horner step, `ACC × 85 + DIG[s]` on natural numbers (R9, R99). -/
def hornerValue (i : Fin 5) (s : State) : Nat := s.acc.toNat * Config.radix + (s.dig.get i).toNat

/-- ACC takes the value of a Horner step (R99). -/
def accumulate (i : Fin 5) (s : State) : State := { s with acc := BitVec.ofNat 33 (hornerValue i s) }

/-- DEC_STEP with s = STEP as a place (R99). ACC never wraps: where the exact value would not fit, which no run reaches
(R100), the model stops (log entry 6). -/
def decStep (i : Fin 5) (s : State) : Host.Outcome State Fault Refusal :=
  if hornerValue i s < 2 ^ 33 then .next (accumulate i s) else .fault .accOutOfRange

/-- DEC_FINISH, reading ACC as the fifth DEC_STEP leaves it (R101). -/
def decFinish (s : State) : State := answer (decWord s.cnt s.acc.toNat) s

/-- DEC at its accepting edge: the check, then the answer or DEC_INIT (R37, R93, R95 to R98).
The five BUSY edges that follow run `decStep` and `decFinish`. -/
def execDec (k : Count) (d : Digits) (s : State) : Host.Outcome State Fault Refusal :=
  match decCheck k d with
  | (.ok, _) => .next (decInit k d s)
  | (st, p) => .next (answerError st p s)

end Sys2Proof.Machine
end

