-- ==== Sys2Proof/Machine/Encoder.lean ====
section
/-! DEFINITION. The encoder family, base85_group_encoder: ENC (40_encoder.md). -/

namespace Sys2Proof.Machine

/-- ENC_INIT (R81). ACC is not written. -/
def encInit (n : Count) (v : GroupWord) (s : State) : State :=
  { s with op := 0, cnt := n, q := realBytes n v, dig := zeroDigits, step := 0, phase := .busy }

/-- ENC_STEP with s = STEP as a place: `DIG'[4 − s] = Q mod 85`, `Q' = Q div 85` (R82). -/
def encStep (i : Fin 5) (s : State) : State :=
  { s with
    dig := s.dig.set i.rev (BitVec.ofNat 7 (s.q.toNat % Config.radix))
    q := BitVec.ofNat 32 (s.q.toNat / Config.radix) }

/-- ENC_FINISH, reading the digits as the fifth ENC_STEP leaves them (R83). -/
def encFinish (s : State) : State := answer (encWord s.cnt s.dig) s

/-- ENC at its accepting edge: the check, then the answer or ENC_INIT (R37, R78, R79).
The five BUSY edges that follow run `encStep` and `encFinish`. -/
def execEnc (n : Count) (v : GroupWord) (s : State) : Host.Outcome State Fault Refusal :=
  match encCheck n with
  | (.ok, _) => .next (encInit n v s)
  | (st, p) => .next (answerError st p s)

end Sys2Proof.Machine
end

