-- ==== Sys2Proof/Machine/Dispatch.lean ====
section
/-! DEFINITION. What each command does at its accepting edge: one arm per constructor of Instr. -/

namespace Sys2Proof.Machine

/-- The effect of a command at the edge where it transfers (R37, the IDLE case with cmd_valid = 1). -/
def exec (i : Instr) (s : State) : Host.Outcome State Fault Refusal :=
  match i with
  | .enc n v => Sys2Proof.Machine.execEnc n v s
  | .dec k d => Sys2Proof.Machine.execDec k d s

end Sys2Proof.Machine
end

