-- ==== Sys2Proof/Machine/Cycle.lean ====
section
/-! DEFINITION. One rising edge of `clk`, the pins given (R37). -/

namespace Sys2Proof.Machine

/-- A command word transfers: a word of the table runs its command, any other is answered ILLEGAL_CMD (R37, R72, R120). -/
def accept (c : Word64) (s : State) : Host.Outcome State Fault Refusal :=
  match decode c with
  | .ok i => exec i s
  | .error _ => .next (answerError .illegalCmd 0 s)

/-- The micro-step of the command in flight (R37: "if OP = 0: ENC_STEP else DEC_STEP"). -/
def microStep (i : Fin 5) (s : State) : Host.Outcome State Fault Refusal :=
  if s.op = 0 then .next (encStep i s) else decStep i s

/-- STEP' = STEP + 1 (R29, R37). -/
def countStep (s : State) : State := { s with step := s.step + 1 }

/-- ENC_FINISH or DEC_FINISH, on the registers as the fifth micro-step leaves them (R37).
With a CNT that is no legal count of OP, which no run reaches (R26), the model stops (log entry 5). -/
def finish (s : State) : Host.Outcome State Fault Refusal :=
  if cntFits s.op s.cnt then .next (if s.op = 0 then encFinish s else decFinish s)
  else .fault .cntOutOfRange

/-- A BUSY edge: one micro-step, and the end of BUSY when it is the fifth (R29, R37).
With a STEP no micro-step is given for, which no run reaches, the model stops (log entry 4). -/
def busyEdge (s : State) : Host.Outcome State Fault Refusal :=
  match stepPlace s.step with
  | none => .fault .stepOutOfRange
  | some i =>
    match microStep i s with
    | .next t => if i = 4 then finish (countStep t) else .next (countStep t)
    | .fault r => .fault r
    | .refused r => .refused r

/-- What the block does at a rising edge of `clk` with these pins (R37). -/
def edge (p : Pins) (s : State) : Host.Outcome State Fault Refusal :=
  if p.rst then .next (applyReset s)
  else
    match s.phase with
    | .idle => if p.cmdValid then accept p.cmdData s else .next s
    | .busy => busyEdge s
    | .done => if p.rspReady then .next (takeResponse s) else .next s

end Sys2Proof.Machine
end

