-- ==== Sys2Proof/Machine/Step.lean ====
section
/-! DEFINITION. One step: the pins of the next edge are taken and the block does what that edge does. -/

namespace Sys2Proof.Machine

/-- One rising edge of `clk` (R36, R37), with what the host drives at it. -/
def step (s : State) : Host.Outcome State Fault Refusal := edge (pinsNow s) (advance s)

/-- The state in which the very next step accepts the command word w (in the opcode table's numbering): the block is in
IDLE and the host offers w at the next edge (log entry 3). -/
def State.withFetchWord (s : State) (nbits w : Nat) : State := offerCommand (wordOfTable nbits w) s

end Sys2Proof.Machine
end

