-- ==== Sys2Proof/Machine/Assembler.lean ====
section
/-! DEFINITION. The assembler: a written command, its operands, its word (R75, R76, D27). -/

namespace Sys2Proof.Machine

/-- A command as written, its operands numbers of any size: `ENC n, v` or `DEC k, d0, …` (R75). -/
inductive Asm where
  | enc (n v : Nat)
  | dec (k : Nat) (ds : List Nat)
  deriving DecidableEq, Repr

/-- Five written digits, each of which must fit its 7-bit field (R75). -/
def asmDigits (ds : List Nat) : Option Digits :=
  match ds with
  | [a, b, c, d, e] =>
    if a ≤ 127 ∧ b ≤ 127 ∧ c ≤ 127 ∧ d ≤ 127 ∧ e ≤ 127 then
      some { d0 := BitVec.ofNat 7 a, d1 := BitVec.ofNat 7 b, d2 := BitVec.ofNat 7 c
             d3 := BitVec.ofNat 7 d, d4 := BitVec.ofNat 7 e }
    else none
  | _ => none

/-- The full form has five digits; the pseudo-form has exactly k < 5 and stands for the full form with 0 in the missing
fields (R76). -/
def fullDigits (k : Nat) (ds : List Nat) : List Nat :=
  if ds.length = k ∧ k < 5 then ds ++ List.replicate (5 - k) 0 else ds

/-- The command a written form stands for: an operand that does not fit its field is refused, a count or digit the block
answers with an error is not (R75). -/
def assembleInstr (a : Asm) : Option Instr :=
  match a with
  | .enc n v => if n ≤ 7 ∧ v ≤ 0xFFFFFFFF then some (.enc (BitVec.ofNat 3 n) (BitVec.ofNat 32 v)) else none
  | .dec k ds =>
    if k ≤ 7 then (asmDigits (fullDigits k ds)).map (Instr.dec (BitVec.ofNat 3 k)) else none

/-- The word of a written command, every reserved bit 0 (R75). -/
def assemble (a : Asm) : Option Word64 := (assembleInstr a).map encode

/-! ### Reading the text (R75; spaces and capitals: log entry 12) -/

/-- A decimal digit's value. -/
def decimalDigit (c : Char) : Option Nat :=
  if '0'.toNat ≤ c.toNat ∧ c.toNat ≤ '9'.toNat then some (c.toNat - '0'.toNat) else none

/-- A hexadecimal digit's value. -/
def hexDigit (c : Char) : Option Nat :=
  if 'A'.toNat ≤ c.toNat ∧ c.toNat ≤ 'F'.toNat then some (c.toNat - 'A'.toNat + 10)
  else if 'a'.toNat ≤ c.toNat ∧ c.toNat ≤ 'f'.toNat then some (c.toNat - 'a'.toNat + 10)
  else decimalDigit c

/-- The number a non-empty run of digits of a base stands for, continuing from `acc`. -/
def readDigits (base : Nat) (value : Char → Option Nat) (acc : Nat) (cs : List Char) : Option Nat :=
  match cs with
  | [] => some acc
  | c :: rest =>
    match value c with
    | some x => readDigits base value (acc * base + x) rest
    | none => none

/-- A decimal number. -/
def readDecimal (cs : List Char) : Option Nat := if cs = [] then none else readDigits 10 decimalDigit 0 cs

/-- A number in hexadecimal after `0x`, or in decimal: the spelling of v (R75, "usually hex"). -/
def readNumber (cs : List Char) : Option Nat :=
  match cs with
  | '0' :: 'x' :: [] => none
  | '0' :: 'x' :: rest => readDigits 16 hexDigit 0 rest
  | _ => readDecimal cs

/-- The pieces of a text between commas. -/
def splitCommas (cs : List Char) : List (List Char) :=
  match cs with
  | [] => [[]]
  | c :: rest =>
    match splitCommas rest with
    | [] => [[c]]
    | f :: fs => if c = ',' then [] :: f :: fs else (c :: f) :: fs

/-- A text without the spaces at its two ends. -/
def trimSpaces (cs : List Char) : List Char :=
  ((cs.dropWhile (· = ' ')).reverse.dropWhile (· = ' ')).reverse

/-- The operands of a command, between commas. -/
def operands (cs : List Char) : List (List Char) := (splitCommas cs).map trimSpaces

/-- A written command read from its characters (R75, R76). -/
def parseAsm (cs : List Char) : Option Asm :=
  match trimSpaces cs with
  | 'E' :: 'N' :: 'C' :: ' ' :: rest =>
    match operands rest with
    | [n, v] =>
      match readDecimal n, readNumber v with
      | some n, some v => some (.enc n v)
      | _, _ => none
    | _ => none
  | 'D' :: 'E' :: 'C' :: ' ' :: rest =>
    match operands rest with
    | k :: ds =>
      match readDecimal k, ds.mapM readDecimal with
      | some k, some ds => some (.dec k ds)
      | _, _ => none
    | [] => none
  | _ => none

/-- The word of a command read from its characters. -/
def assembleText (cs : List Char) : Option Word64 := (parseAsm cs).bind assemble

end Sys2Proof.Machine
end

