-- ==== Sys2Proof/Machine/Transaction.lean ====
section
/-! DEFINITION. The transaction view: RESULT(c), what a command word is answered with, cycles ignored (R39).
Written from the closed forms of R78 and R93, not from the micro-steps; the statements say that the two agree. -/

namespace Sys2Proof.Machine

/-- Digit i of a value in base 85, `(v div 85^(4−i)) mod 85` (R78, R84). -/
def digitOf (v : Nat) (i : Fin 5) : Digit := BitVec.ofNat 7 (v / Config.radix ^ (4 - i.val) % Config.radix)

/-- The five digits of a value in base 85, most significant first (R84). -/
def digitsOf (v : Nat) : Digits := Digits.ofFn (digitOf v)

/-- The answer to a legal ENC command (R78). -/
def encResult (n : Count) (v : GroupWord) : Word64 := encWord n (digitsOf (realBytes n v).toNat)

/-- The answer to a DEC command that passes every check (R93). -/
def decResult (k : Count) (d : Digits) : Word64 := decWord k (effectiveDigits k d).val

/-- The answer to a command that passes every check. -/
def computed (i : Instr) : Word64 :=
  match i with
  | .enc n v => encResult n v
  | .dec k d => decResult k d

/-- The answer to a command of the table (R39). -/
def resultInstr (i : Instr) : Word64 :=
  match checkInstr i with
  | (.ok, _) => computed i
  | (st, p) => errorWord st p

/-- `RESULT(c)`, a total function of the command word alone (R39). -/
def result (c : Word64) : Word64 :=
  match decode c with
  | .ok i => resultInstr i
  | .error _ => errorWord .illegalCmd 0

end Sys2Proof.Machine
end

