-- ==== Sys2Proof/Machine/Wrapper.lean ====
section
/-! DEFINITION. The host wrapper: how buffer-level encode and decode are put together from group commands (R52 to R57).
The wrapper is not part of the block (R4); it sees only `result`, the block's answer to a command word (R39). -/

namespace Sys2Proof.Machine

/-! ### Encoding a buffer (R52) -/

/-- A group of at most four bytes packed into the high bytes of a data field; the low bytes "may hold anything" and are
taken from `fill` (R43, R45, R52; log entry 11). -/
def packBytes (fill : GroupWord) (bs : List Byte) : GroupWord :=
  let fb := fun j : Nat => (fill.extractLsb' (24 - 8 * j) 8 : Byte)
  bs.getD 0 (fb 0) ++ bs.getD 1 (fb 1) ++ bs.getD 2 (fb 2) ++ bs.getD 3 (fb 3)

/-- The first `ocnt` digits of a response (R52, R68). -/
def validDigits (r : Word64) : List Digit :=
  let d := digitFields r
  [d.d0, d.d1, d.d2, d.d3, d.d4].take (rspOcnt r).toNat

/-- The digits the block returns for one group: `ENC n, v` with n the number of bytes (R52). -/
def encodeGroup (fill : GroupWord) (bs : List Byte) : List Digit :=
  validDigits (result (encode (.enc (BitVec.ofNat 3 bs.length) (packBytes fill bs))))

/-- PB85's `encode` on digits: full groups, then the tail; an empty buffer issues no command (R52). -/
def encodeBuffer (fill : GroupWord) (bs : List Byte) : List Digit :=
  match bs with
  | [] => []
  | b0 :: b1 :: b2 :: b3 :: rest => encodeGroup fill [b0, b1, b2, b3] ++ encodeBuffer fill rest
  | [b0] => encodeGroup fill [b0]
  | [b0, b1] => encodeGroup fill [b0, b1]
  | [b0, b1, b2] => encodeGroup fill [b0, b1, b2]

/-! ### Decoding a text (R54, R57) -/

/-- PB85's decode-time errors with their arguments, as the wrapper derives them (R57). -/
inductive DecodeTextError where
  /-- InvalidCharacter(position). -/
  | invalidCharacter (position : Nat)
  /-- TruncatedInput(length). -/
  | truncatedInput (length : Nat)
  /-- Overflow(chunkIndex). -/
  | overflow (chunkIndex : Nat)
  /-- The block answered ILLEGAL_CMD or no status it produces: the wrapper never issues such a command. -/
  | illegalCommand
  deriving DecidableEq, Repr

/-- The four bytes of a data field, most significant first (R43). -/
def dataBytes (v : GroupWord) : List Byte :=
  [v.extractLsb 31 24, v.extractLsb 23 16, v.extractLsb 15 8, v.extractLsb 7 0]

/-- The first `ocnt` bytes of a response's data field (R54, R68). -/
def validBytes (r : Word64) : List Byte := (dataBytes (rspDataField r)).take (rspOcnt r).toNat

/-- The digit fields of a `DEC k` command issued for k digits, 0 in the missing places (R76). -/
def issueDigits (ds : List Digit) : Digits :=
  { d0 := ds.getD 0 0, d1 := ds.getD 1 0, d2 := ds.getD 2 0, d3 := ds.getD 3 0, d4 := ds.getD 4 0 }

/-- What the wrapper makes of the response to chunk c of a text of length T (R54, R57). -/
def readResponse (T c : Nat) (r : Word64) : Except DecodeTextError (List Byte) :=
  match Status.ofCode (rspStatus r) with
  | some .ok => .ok (validBytes r)
  | some .invalidDigit => .error (.invalidCharacter (5 * c + (rspEpos r).toNat))
  | some .truncated => .error (.truncatedInput T)
  | some .overflow => .error (.overflow c)
  | some .illegalCmd => .error .illegalCommand
  | none => .error .illegalCommand

/-- One chunk: `DEC k` with its digits (R54). -/
def decodeChunk (T c : Nat) (ds : List Digit) : Except DecodeTextError (List Byte) :=
  readResponse T c (result (encode (.dec (BitVec.ofNat 3 ds.length) (issueDigits ds))))

/-- The bytes of one chunk put before the bytes of the chunks after it; the first error stands. -/
def joinBytes (x y : Except DecodeTextError (List Byte)) : Except DecodeTextError (List Byte) :=
  match x, y with
  | .ok bs, .ok cs => .ok (bs ++ cs)
  | .ok _, .error e => .error e
  | .error e, _ => .error e

/-- The chunks of a text from chunk c on (R54). -/
def decodeChunks (T c : Nat) (ds : List Digit) : Except DecodeTextError (List Byte) :=
  match ds with
  | [] => .ok []
  | d0 :: d1 :: d2 :: d3 :: d4 :: rest =>
    joinBytes (decodeChunk T c [d0, d1, d2, d3, d4]) (decodeChunks T (c + 1) rest)
  | [d0] => decodeChunk T c [d0]
  | [d0, d1] => decodeChunk T c [d0, d1]
  | [d0, d1, d2] => decodeChunk T c [d0, d1, d2]
  | [d0, d1, d2, d3] => decodeChunk T c [d0, d1, d2, d3]

/-- PB85's `decode` on digits: a text of length 5q + 1 is TruncatedInput, else the chunks in order (R54).
R54 has the length test before the chunks (log entry 11). -/
def decodeBuffer (ds : List Digit) : Except DecodeTextError (List Byte) :=
  if ds.length % 5 = 1 then .error (.truncatedInput ds.length) else decodeChunks ds.length 0 ds

/-! ### Characters (R7, R14, R54): the wrapper's ALPHABET, an argument -/

/-- ALPHABET is an injective map from 0..84 to characters, held as its 85 characters in order (R7, R14, R119). -/
def alphabetOk (alphabet : List Char) : Bool := alphabet.length = 85 && decide alphabet.Nodup

/-- The character of a digit (R52). -/
def charOf (alphabet : List Char) (d : Digit) : Char := alphabet.getD d.toNat ' '

/-- The digit of a character, none where it is not in the alphabet (R54). -/
def valueOf (alphabet : List Char) (c : Char) : Option Digit :=
  (alphabet.findIdx? (· = c)).map (BitVec.ofNat 7)

/-- PB85's `encode`: the digits mapped through the alphabet (R52). -/
def encodeText (alphabet : List Char) (fill : GroupWord) (bs : List Byte) : List Char :=
  (encodeBuffer fill bs).map (charOf alphabet)

/-- The digits of a text, or the position of its first character that is not in the alphabet (R54). -/
def textDigits (alphabet : List Char) (position : Nat) (cs : List Char) : Except DecodeTextError (List Digit) :=
  match cs with
  | [] => .ok []
  | c :: rest =>
    match valueOf alphabet c with
    | none => .error (.invalidCharacter position)
    | some d => (textDigits alphabet (position + 1) rest).map (d :: ·)

/-- PB85's `decode`: first every character is mapped, then the digits are decoded (R54). -/
def decodeText (alphabet : List Char) (cs : List Char) : Except DecodeTextError (List Byte) :=
  match textDigits alphabet 0 cs with
  | .ok ds => decodeBuffer ds
  | .error e => .error e

end Sys2Proof.Machine
end

