-- ==== Sys2Proof/Safety.lean ====
section
/-! DEFINITION. The terms claims use: what holds of every reachable state, runs over the host's pins, what a run transfers. -/

namespace Sys2Proof.Machine

/-- A response word the block produces: status 0 to 4, `ocnt` at most 5 and `epos` at most 4, the zero field 0, no unit
and no payload in an error, no position but in INVALID_DIGIT (R66 to R70, R121). RSP's reset value is one too. -/
def responseOk (r : Word64) : Prop :=
  (rspStatus r).toNat ≤ 4 ∧ (rspOcnt r).toNat ≤ 5 ∧ (rspEpos r).toNat ≤ 4 ∧ rspZero r = 0
    ∧ (rspStatus r ≠ 0 → rspOcnt r = 0 ∧ rspPayload r = 0)
    ∧ (rspStatus r ≠ 1 → rspEpos r = 0)

/-- Every place of DIG holds a digit, 0 to 84. -/
def digitsOk (d : Digits) : Prop := ∀ i : Fin 5, (d.get i).toNat ≤ Config.digitMax

/-- What R23 to R31 say the registers hold: STEP at most 5 and at most 4 in BUSY (R29), a legal CNT of OP in BUSY (R26),
valid digits in DIG (R85, R98), ACC at most 85^5 − 1 (R28) and at most 85^STEP − 1 while DEC is in BUSY (R100), a
response word in RSP (R66 to R70). -/
def StateInv (s : State) : Prop :=
  s.step.toNat ≤ 5
    ∧ (s.phase = .busy → s.step.toNat ≤ 4 ∧ cntFits s.op s.cnt = true)
    ∧ digitsOk s.dig
    ∧ s.acc.toNat ≤ Config.radix ^ 5 - 1
    ∧ (s.phase = .busy → s.op = 1 → s.acc.toNat ≤ Config.radix ^ s.step.toNat - 1)
    ∧ responseOk s.rsp

/-- The block is quiescent: PHASE = IDLE and `rst` = 0 (R143). -/
def quiescent (rst : Bool) (s : State) : Prop := s.phase = .idle ∧ rst = false

/-- The edges of a list of pins, one after the other, up to the first stop. -/
def runEdges (ps : List Pins) (s : State) : Host.Outcome State Fault Refusal :=
  match ps with
  | [] => .next s
  | p :: rest =>
    match edge p s with
    | .next t => runEdges rest t
    | .fault r => .fault r
    | .refused r => .refused r

/-- The command words that transfer at the edges of a list of pins (R18), in order. -/
def accepted (ps : List Pins) (s : State) : List Word64 :=
  match ps with
  | [] => []
  | p :: rest =>
    (if cmdTransfers p s then [p.cmdData] else [])
      ++ (match edge p s with
          | .next t => accepted rest t
          | .fault _ => []
          | .refused _ => [])

/-- The response words that transfer at the edges of a list of pins (R19), in order. -/
def responses (ps : List Pins) (s : State) : List Word64 :=
  match ps with
  | [] => []
  | p :: rest =>
    (if rspTransfers p s then [rspData s] else [])
      ++ (match edge p s with
          | .next t => responses rest t
          | .fault _ => []
          | .refused _ => [])

/-- The accepted commands that still owe a response after the edges of a list of pins, oldest first, `owed` before them: a
response that transfers settles the oldest (R40), and a reset edge drops them all, "no response is ever produced" (R130). -/
def unanswered (owed : List Word64) (ps : List Pins) (s : State) : List Word64 :=
  match ps with
  | [] => owed
  | p :: rest =>
    let after :=
      if p.rst then []
      else (if rspTransfers p s then owed.drop 1 else owed) ++ (if cmdTransfers p s then [p.cmdData] else [])
    match edge p s with
    | .next t => unanswered after rest t
    | .fault _ => after
    | .refused _ => after

/-- At the last edge of a list of pins the host offered a command that did not transfer: the offer still stands (R135).
An offer withdrawn or replaced before it transferred "has sent nothing" (R135) and is none (log entry 13). -/
def offerStands (ps : List Pins) (s : State) : Bool :=
  match ps with
  | [] => false
  | [p] => p.cmdValid && !cmdTransfers p s
  | p :: q :: rest =>
    match edge p s with
    | .next t => offerStands (q :: rest) t
    | .fault _ => false
    | .refused _ => false

/-- R143: the sequence of commands cs has ended after the edges of a list of pins, with `rst` as it now is: every command
offered has transferred (they are cs, and no offer still stands), every response has transferred (no command is owed one),
and the block is quiescent. It does not say that no reset dropped a command. -/
def sequenceEnded (cs : List Word64) (ps : List Pins) (rst : Bool) (s : State) : Prop :=
  accepted ps s = cs ∧ offerStands ps s = false ∧ unanswered [] ps s = []
    ∧ ∃ t, runEdges ps s = .next t ∧ quiescent rst t

/-- No edge of the list is a reset edge. -/
def noReset (ps : List Pins) : Prop := ∀ p ∈ ps, p.rst = false

/-- The registers of R23, all of a state but the host's side. -/
def sameRegisters (s t : State) : Prop := { s with host := t.host, drawn := t.drawn } = t

end Sys2Proof.Machine
end

