-- ==== Sys2Proof/WellFormed.lean ====
section
/-! DEFINITION. Which commands the opcode table calls legal ("legal_when"): the count is in range (R60, R79, R95). -/

namespace Sys2Proof

/-- The table's `legal_when`: n in 1..4 for ENC (R79), k in 1..5 for DEC (R95).
k = 1 is in: such a command is well formed and answered TRUNCATED or INVALID_DIGIT (R96, R97). -/
def Instr.wellFormed (i : Instr) : Bool :=
  match i with
  | .enc n _ => 1 ≤ n.toNat && n.toNat ≤ 4
  | .dec k _ => 1 ≤ k.toNat && k.toNat ≤ 5

/-- The command is one the opcode table calls legal. -/
abbrev Instr.WellFormed (i : Instr) : Prop := i.wellFormed = true

end Sys2Proof
end

