-- ==== Sys2Proof/Certificates/Slice0/Obligations.lean ====
section
/-! DEFINITION. The statements for the provers, each taken from the numbered rules its docstring names. -/

open Sys2Proof Sys2Proof.Machine

/-! ### Reset (R38, R130, R131, R133) -/

/-- R38: a step whose edge has `rst` = 1 leaves every register at its reset value, whatever the phase and whatever the
registers held, and `State.reset` holds the same values. -/
def Obligations.ResetSetsEveryRegister : Prop :=
  (∀ s : State, (pinsNow s).rst = true →
    step s = .next
      { phase := .idle, op := 0, cnt := 0, step := 0, q := 0, acc := 0
        dig := { d0 := 0, d1 := 0, d2 := 0, d3 := 0, d4 := 0 }, rsp := 0
        host := (advance s).host, drawn := (advance s).drawn })
  ∧ State.reset.phase = .idle ∧ State.reset.op = 0 ∧ State.reset.cnt = 0 ∧ State.reset.step = 0
  ∧ State.reset.q = 0 ∧ State.reset.acc = 0 ∧ (∀ i, State.reset.dig.get i = 0) ∧ State.reset.rsp = 0

/-- R130: a reset edge drops the command in flight: from any state, the edges after a reset edge accept and answer what they
accept and answer from `State.reset`, and the registers after it are those of `State.reset`. -/
def Obligations.ResetDropsCommandInFlight : Prop :=
  ∀ (p : Pins) (ps : List Pins) (s : State), p.rst = true →
    (∃ t, edge p s = .next t ∧ sameRegisters t State.reset)
    ∧ accepted (p :: ps) s = accepted ps State.reset
    ∧ responses (p :: ps) s = responses ps State.reset

/-- R131: while `rst` = 1 both output handshakes are 0, nothing transfers, the other inputs are ignored, and several reset
edges have the effect of one. -/
def Obligations.HeldResetIsOneReset : Prop :=
  ∀ (p : Pins) (s : State), p.rst = true →
    cmdReady p.rst s = false ∧ rspValid p.rst s = false
    ∧ cmdTransfers p s = false ∧ rspTransfers p s = false
    ∧ (∀ p' : Pins, p'.rst = true → edge p' s = edge p s)
    ∧ (∀ ps : List Pins, (∀ p' ∈ ps, p'.rst = true) → runEdges (p :: ps) s = edge p s)

/-! ### Ports and transfers (R18 to R21, R138, R142) -/

/-- R20: `cmd_ready` is 1 exactly in IDLE with `rst` = 0, and no other input of the cycle enters; so, as the first sentence of
R133 has it, a command offered at the first edge with `rst` = 0 after a reset edge transfers. -/
def Obligations.CommandReadyExactlyInIdle : Prop :=
  (∀ (rst : Bool) (s : State), cmdReady rst s = true ↔ s.phase = .idle ∧ rst = false)
  ∧ (∀ (p p' : Pins) (s : State), p.rst = true → p'.rst = false → p'.cmdValid = true →
      ∃ t, edge p s = .next t ∧ t.phase = .idle ∧ cmdReady p'.rst t = true ∧ cmdTransfers p' t = true)

/-- R21: `rsp_valid` is 1 exactly in DONE with `rst` = 0, `rsp_data` is RSP, and in DONE an edge with `rst` = 0 leaves RSP as
it is, and PHASE too unless the response transfers. -/
def Obligations.ResponseValidAndHeldInDone : Prop :=
  (∀ (rst : Bool) (s : State), rspValid rst s = true ↔ s.phase = .done ∧ rst = false)
  ∧ (∀ s : State, rspData s = s.rsp)
  ∧ (∀ (p : Pins) (s : State), s.phase = .done → p.rst = false →
      ∃ t, edge p s = .next t ∧ rspData t = rspData s
        ∧ (rspTransfers p s = false → rspValid false t = true))

/-- R18: when a command transfers, that the transferred word is the one on `cmd_data` at that edge, and that at every other
edge `cmd_valid` and `cmd_data` have no effect; an edge in IDLE with `rst` = 0 and `cmd_valid` = 0 changes nothing at all. -/
def Obligations.CommandSampledOnlyAtTransfer : Prop :=
  (∀ (p : Pins) (s : State),
    cmdTransfers p s = true ↔ p.rst = false ∧ p.cmdValid = true ∧ cmdReady p.rst s = true)
  ∧ (∀ (p : Pins) (s : State), cmdTransfers p s = true → edge p s = accept p.cmdData s)
  ∧ (∀ (p p' : Pins) (s : State), p'.rst = p.rst → p'.rspReady = p.rspReady →
      cmdTransfers p s = false → cmdTransfers p' s = false → edge p' s = edge p s)
  ∧ (∀ (p : Pins) (s : State), s.phase = .idle → p.rst = false → p.cmdValid = false → edge p s = .next s)

/-- R19: when a response transfers, what that edge does, and that at every other edge `rsp_ready` has no effect. -/
def Obligations.ResponseTakenOnlyAtTransfer : Prop :=
  (∀ (p : Pins) (s : State),
    rspTransfers p s = true ↔ p.rst = false ∧ rspValid p.rst s = true ∧ p.rspReady = true)
  ∧ (∀ (p : Pins) (s : State), rspTransfers p s = true → edge p s = .next { s with phase := .idle })
  ∧ (∀ (p p' : Pins) (s : State), p'.rst = p.rst → p'.cmdValid = p.cmdValid → p'.cmdData = p.cmdData →
      rspTransfers p s = false → rspTransfers p' s = false → edge p' s = edge p s)

/-- R138: an edge that transfers a response transfers no command, and a command offered at the following edge does transfer. -/
def Obligations.NoCommandAtAResponseEdge : Prop :=
  ∀ (p p' : Pins) (s : State), rspTransfers p s = true →
    cmdTransfers p s = false
    ∧ (p'.rst = false → p'.cmdValid = true → ∃ t, edge p s = .next t ∧ cmdTransfers p' t = true)

/-- R142: over any number of edges with `rsp_ready` = 0 and `rst` = 0 the block stays in DONE with `rsp_valid` = 1 and nothing
changes; taking the response or a reset edge lifts it. -/
def Obligations.UntakenResponseWaitsForEver : Prop :=
  ∀ s : State, s.phase = .done →
    (∀ ps : List Pins, (∀ p ∈ ps, p.rst = false ∧ p.rspReady = false) →
      runEdges ps s = .next s ∧ rspValid false s = true)
    ∧ (∀ p : Pins, (p.rst = true ∨ p.rspReady = true) → ∃ t, edge p s = .next t ∧ t.phase = .idle)

/-! ### A step and the command words (R37, R71, R72, R79, R95, R118, R120) -/

/-- Every step is one edge with the pins of the host's list, or free pins where the list is at its end (the model's
convention, log entry 2), and taking the pins changes nothing but the list and the counter. -/
def Obligations.StepIsOneEdge : Prop :=
  (∀ s : State, step s = edge (pinsNow s) (advance s))
  ∧ (∀ (p : Pins) (ps : List Pins) (s : State), s.host = p :: ps → pinsNow s = p ∧ advance s = { s with host := ps })
  ∧ (∀ s : State, s.host = [] →
      pinsNow s = Config.freePins s.drawn ∧ advance s = { s with drawn := s.drawn + 1 })

/-- When the block is in IDLE and the word offered at the next edge decodes to a command i, the step is `exec i`, the pins
having been taken; `withFetchWord` (log entry 3) sets up such a state. -/
def Obligations.StepRunsDecodedCommand : Prop :=
  (∀ (s : State) (i : Instr), s.phase = .idle → (pinsNow s).rst = false → (pinsNow s).cmdValid = true →
    decode (pinsNow s).cmdData = .ok i → step s = exec i (advance s))
  ∧ (∀ (s : State) (w : Nat) (i : Instr), decodeTableWord 64 w = some i →
      step (s.withFetchWord 64 w) = exec i { s with phase := .idle })

/-- A run of the host's core over a list of pins is the run over those edges: the host's list is only consumed. That a step is
one edge (log entry 1) and that its pins are data in State (log entry 2) is the model's choice. -/
def Obligations.CoreRunIsTheEdges : Prop :=
  ∀ (ps rest : List Pins) (s : State), s.host = ps ++ rest →
    Host.Core.run Sys2Proof.core ps.length s = runEdges ps { s with host := rest }

/-- R71: the word of row ENC, of row DEC, or of no row, by match and mask; the two rows share no word; a word of no row is
answered ILLEGAL_CMD. -/
def Obligations.WordsSelectTheirRow : Prop :=
  ∀ c : Word64,
    (c &&& 0xC7FFFFFF00000000 = 0 →
      decode c = .ok (.enc (c.extractLsb 61 59) (c.extractLsb 31 0)) ∧ c &&& 0xC7FFFFF800000000 ≠ 0x4000000000000000)
    ∧ (c &&& 0xC7FFFFF800000000 = 0x4000000000000000 →
      decode c = .ok (.dec (c.extractLsb 61 59)
        { d0 := c.extractLsb 34 28, d1 := c.extractLsb 27 21, d2 := c.extractLsb 20 14, d3 := c.extractLsb 13 7
          d4 := c.extractLsb 6 0 }))
    ∧ (c &&& 0xC7FFFFFF00000000 ≠ 0 → c &&& 0xC7FFFFF800000000 ≠ 0x4000000000000000 →
      ∀ s : State, accept c s = .next { s with rsp := 0x8000000000000000, phase := .done })

/-- R72 and R118: a word that is no legal ENC or DEC word is answered 0x8000000000000000 at the accepting edge, and a legal
one never is; the legal words are those of the well-formed commands; the words of R72's example are of the two kinds. -/
def Obligations.IllegalWordsAndOnlyTheyAreIllegal : Prop :=
  let legal := fun c : Word64 =>
    (c &&& 0xC7FFFFFF00000000 = 0 ∧ 1 ≤ (c.extractLsb 61 59).toNat ∧ (c.extractLsb 61 59).toNat ≤ 4)
      ∨ (c &&& 0xC7FFFFF800000000 = 0x4000000000000000 ∧ 1 ≤ (c.extractLsb 61 59).toNat ∧ (c.extractLsb 61 59).toNat ≤ 5)
  (∀ (c : Word64) (p : Pins) (s : State), s.phase = .idle → p.rst = false → p.cmdValid = true → p.cmdData = c →
    ¬ legal c → edge p s = .next { s with rsp := 0x8000000000000000, phase := .done })
  ∧ (∀ c : Word64, legal c → rspStatus (result c) ≠ 4)
  ∧ (∀ c : Word64, legal c ↔ ∃ i : Instr, i.WellFormed ∧ c = encode i)
  ∧ ¬ legal 0x2000000100000000 ∧ legal 0x2000000000000000

/-- R79: with op = 00, a word with [58:32] = 0 and a count in 1..4 starts a computation, and every other is answered
ILLEGAL_CMD at acceptance without entering BUSY. -/
def Obligations.EncLegality : Prop :=
  ∀ (c : Word64) (s : State), c.extractLsb 63 62 = 0#2 →
    if c.extractLsb 58 32 = 0#27 ∧ 1 ≤ (c.extractLsb 61 59).toNat ∧ (c.extractLsb 61 59).toNat ≤ 4 then
      ∃ t, accept c s = .next t ∧ t.phase = .busy
    else accept c s = .next { s with rsp := 0x8000000000000000, phase := .done }

/-- R95: with op = 01, a word whose [58:35] is not 0 or whose count is not in 1..5 is answered ILLEGAL_CMD at acceptance, and a
well-formed one is not. -/
def Obligations.DecWellFormedness : Prop :=
  ∀ (c : Word64) (s : State), c.extractLsb 63 62 = 1#2 →
    if c.extractLsb 58 35 = 0#24 ∧ 1 ≤ (c.extractLsb 61 59).toNat ∧ (c.extractLsb 61 59).toNat ≤ 5 then
      ∃ t, accept c s = .next t ∧ (t.phase = .busy ∨ (t.phase = .done ∧ rspStatus t.rsp ≠ 4))
    else accept c s = .next { s with rsp := 0x8000000000000000, phase := .done }

/-- R120: `check` is the pseudocode of the rule, word by word: op, reserved bits, count, digits from place 0, k = 1; what it
finds is what is answered, and OVERFLOW is answered only where it finds nothing. -/
def Obligations.CheckFollowsItsPriority : Prop :=
  (∀ c : Word64,
    let op := (c.extractLsb 63 62).toNat
    let n := (c.extractLsb 61 59).toNat
    let d := fun i : Nat => (c.extractLsb' (28 - 7 * i) 7).toNat
    check c =
      if op = 0 then
        if c.extractLsb 58 32 ≠ 0 ∨ ¬ (1 ≤ n ∧ n ≤ 4) then (.illegalCmd, 0) else (.ok, 0)
      else if op = 1 then
        if c.extractLsb 58 35 ≠ 0 ∨ ¬ (1 ≤ n ∧ n ≤ 5) then (.illegalCmd, 0)
        else if 84 < d 0 then (.invalidDigit, 0)
        else if 2 ≤ n ∧ 84 < d 1 then (.invalidDigit, 1)
        else if 3 ≤ n ∧ 84 < d 2 then (.invalidDigit, 2)
        else if 4 ≤ n ∧ 84 < d 3 then (.invalidDigit, 3)
        else if 5 ≤ n ∧ 84 < d 4 then (.invalidDigit, 4)
        else if n = 1 then (.truncated, 0)
        else (.ok, 0)
      else (.illegalCmd, 0))
  ∧ (∀ c : Word64, (check c).1 ≠ .ok → rspStatus (result c) = (check c).1.code ∧ rspEpos (result c) = (check c).2)
  ∧ (∀ c : Word64, rspStatus (result c) = Status.overflow.code → (check c).1 = .ok)

/-- The model's three stops (its choice, log entries 4 to 6), at a BUSY edge only and in states the invariant rules out: STEP
above 4; a fifth micro-step with a CNT that is no legal count of OP, of either OP; a Horner step whose exact value needs more
than 33 bits. -/
def Obligations.StopsOnlyOutOfRange : Prop :=
  (∀ (p : Pins) (s : State), p.rst = false → s.phase = .busy → 5 ≤ s.step.toNat → edge p s = .fault .stepOutOfRange)
  ∧ (∀ (p : Pins) (s : State), p.rst = false → s.phase = .busy → s.step = 4 → s.op = 0 → cntFits s.op s.cnt = false →
      edge p s = .fault .cntOutOfRange)
  ∧ (∀ (p : Pins) (s : State), p.rst = false → s.phase = .busy → s.step = 4 → s.op = 1 → cntFits s.op s.cnt = false →
      s.acc.toNat * 85 + (s.dig.get 4).toNat < 2 ^ 33 → edge p s = .fault .cntOutOfRange)
  ∧ (∀ (p : Pins) (s : State) (i : Fin 5), p.rst = false → s.phase = .busy → s.op = 1 → s.step.toNat = i.val →
      2 ^ 33 ≤ s.acc.toNat * 85 + (s.dig.get i).toNat → edge p s = .fault .accOutOfRange)
  ∧ (∀ (s : State) (f : Fault), step s = .fault f → (pinsNow s).rst = false ∧ s.phase = .busy ∧ ¬ StateInv s)
  ∧ (∀ (s : State) (r : Refusal), step s ≠ .refused r)

/-! ### ENC (R78 to R91) -/

/-- R81, and what an ENC command of a legal count does at its accepting edge: ENC_INIT, every other register as before. -/
def Obligations.EncStartsAtAcceptance : Prop :=
  ∀ (n : Count) (v : GroupWord) (s : State), 1 ≤ n.toNat → n.toNat ≤ 4 →
    exec (.enc n v) s = .next
      { s with
        op := 0, cnt := n, q := v &&& byteMask n.toNat, dig := { d0 := 0, d1 := 0, d2 := 0, d3 := 0, d4 := 0 }
        step := 0, phase := .busy }

/-- ENC completes: for every legal count, data and state, `exec` starts the command and five edges with `rst` = 0, whatever
else the host drives, end in DONE with R78's response: OK, ocnt n + 1, digit i of the masked value
`(v' div 85^(4−i)) mod 85` for i ≤ n, and 0 in the other places. -/
def Obligations.EncCompletesWithItsDigits : Prop :=
  ∀ (n : Count) (v : GroupWord) (s : State) (ps : List Pins), 1 ≤ n.toNat → n.toNat ≤ 4 → ps.length = 5 → noReset ps →
    ∃ t u, exec (.enc n v) s = .next t ∧ runEdges ps t = .next u ∧ u.phase = .done
      ∧ rspStatus u.rsp = 0 ∧ (rspOcnt u.rsp).toNat = n.toNat + 1 ∧ rspEpos u.rsp = 0 ∧ rspZero u.rsp = 0
      ∧ ∀ i : Fin 5, ((digitFields u.rsp).get i).toNat =
          if i.val ≤ n.toNat then (v &&& byteMask n.toNat).toNat / 85 ^ (4 - i.val) % 85 else 0

/-- R82: a BUSY edge with OP = 0 writes digit 4 − STEP with Q mod 85 and Q with Q div 85, counts STEP, and leaves the other
digits, ACC, OP, CNT and the host's side as they are; RSP is left too but at the fifth. -/
def Obligations.EncMicroStep : Prop :=
  ∀ (p : Pins) (s : State), p.rst = false → s.phase = .busy → s.op = 0 → s.step.toNat ≤ 4 →
    1 ≤ s.cnt.toNat → s.cnt.toNat ≤ 4 →
    ∃ t, edge p s = .next t
      ∧ (∀ i : Fin 5, i.val = 4 - s.step.toNat → (t.dig.get i).toNat = s.q.toNat % 85)
      ∧ (∀ i : Fin 5, i.val ≠ 4 - s.step.toNat → t.dig.get i = s.dig.get i)
      ∧ t.q.toNat = s.q.toNat / 85 ∧ t.step.toNat = s.step.toNat + 1
      ∧ t.phase = (if s.step = 4 then .done else .busy)
      ∧ (s.step ≠ 4 → t.rsp = s.rsp)
      ∧ t.acc = s.acc ∧ t.op = s.op ∧ t.cnt = s.cnt ∧ t.host = s.host ∧ t.drawn = s.drawn

/-- R83: the fifth BUSY edge of an encoder command leaves in RSP the word {OK, CNT + 1, 0, 20'b0, D[0..4]} with D[i] = DIG'[i]
for i ≤ CNT and 0 above. -/
def Obligations.EncFinishBuildsResponse : Prop :=
  ∀ (p : Pins) (s : State), p.rst = false → s.phase = .busy → s.op = 0 → s.step = 4 →
    1 ≤ s.cnt.toNat → s.cnt.toNat ≤ 4 →
    ∃ t, edge p s = .next t ∧ t.phase = .done ∧
      let D := fun i : Fin 5 => if i.val ≤ s.cnt.toNat then t.dig.get i else 0
      t.rsp = (0#3 ++ (s.cnt + 1) ++ 0#3 ++ 0#20 ++ (D 0 ++ D 1 ++ D 2 ++ D 3 ++ D 4) : Word64)

/-- R84: after m of the five micro-steps of an ENC command, Q = v' div 85^m and DIG[4 − t] = (v' div 85^t) mod 85 for t < m; so
after the fifth DIG[i] = (v' div 85^(4−i)) mod 85 for each i. -/
def Obligations.EncDigitsInClosedForm : Prop :=
  ∀ (n : Count) (v : GroupWord) (s : State) (ps : List Pins), 1 ≤ n.toNat → n.toNat ≤ 4 → ps.length ≤ 5 → noReset ps →
    ∃ t u, exec (.enc n v) s = .next t ∧ runEdges ps t = .next u
      ∧ u.q.toNat = (v &&& byteMask n.toNat).toNat / 85 ^ ps.length
      ∧ ∀ i : Fin 5, 4 - i.val < ps.length →
          (u.dig.get i).toNat = (v &&& byteMask n.toNat).toNat / 85 ^ (4 - i.val) % 85

/-- R85: after the fifth micro-step of an ENC command Q = 0, each digit is at most 84, the leading digit is v' div 52,200,625
and at most 82, and the response holds no invalid digit. -/
def Obligations.EncDigitsAreValid : Prop :=
  ∀ (n : Count) (v : GroupWord) (s : State) (ps : List Pins), 1 ≤ n.toNat → n.toNat ≤ 4 → ps.length = 5 → noReset ps →
    ∃ t u, exec (.enc n v) s = .next t ∧ runEdges ps t = .next u
      ∧ u.q = 0 ∧ (∀ i : Fin 5, (u.dig.get i).toNat ≤ 84)
      ∧ (u.dig.get 0).toNat = (v &&& byteMask n.toNat).toNat / 52200625 ∧ (u.dig.get 0).toNat ≤ 82
      ∧ ∀ i : Fin 5, ((digitFields u.rsp).get i).toNat ≤ 84

/-- R86: the five digits answered to a full group are the base-85 representation of its value. -/
def Obligations.FullGroupDigitsHaveItsValue : Prop :=
  ∀ v : GroupWord, (digitFields (result (encode (.enc 4 v)))).val = v.toNat

/-- R87: a tail of n bytes gives exactly n + 1 digits, the first n + 1 of the encoding of v with zero pad bytes; a full group
gives 5. -/
def Obligations.TailIsThePrefixOfItsPaddedGroup : Prop :=
  (∀ (n : Count) (v : GroupWord), 1 ≤ n.toNat → n.toNat ≤ 3 →
    validDigits (result (encode (.enc n v)))
        = (validDigits (result (encode (.enc 4 (v &&& byteMask n.toNat))))).take (n.toNat + 1)
      ∧ (validDigits (result (encode (.enc n v)))).length = n.toNat + 1)
  ∧ ∀ v : GroupWord, (validDigits (result (encode (.enc 4 v)))).length = 5

/-- R80: ENC keeps the n real bytes and puts 0x00 in the place of the others, so bytes at positions n..3 have no effect, and
for n = 4 the whole data field is used. -/
def Obligations.EncIgnoresPadBytes : Prop :=
  ∀ (n : Count) (v w : GroupWord) (s : State), 1 ≤ n.toNat → n.toNat ≤ 4 →
    (∀ j : Nat, j < n.toNat → v.extractLsb' (24 - 8 * j) 8 = w.extractLsb' (24 - 8 * j) 8) →
    exec (.enc n v) s = exec (.enc n w) s
    ∧ ∃ t, exec (.enc n v) s = .next t
      ∧ (∀ j : Nat, j < 4 → t.q.extractLsb' (24 - 8 * j) 8 =
          if j < n.toNat then v.extractLsb' (24 - 8 * j) 8 else 0)
      ∧ (n = 4 → t.q = v)

/-- R91: an ENC command neither reads nor writes ACC: from its acceptance through its five BUSY edges, another value in ACC
changes nothing but ACC itself, which keeps it; and of the registers only OP, CNT, Q, DIG, STEP, RSP and PHASE are written. -/
def Obligations.EncLeavesAccAlone : Prop :=
  ∀ (n : Count) (v : GroupWord) (s : State) (a : BitVec 33) (ps : List Pins),
    1 ≤ n.toNat → n.toNat ≤ 4 → ps.length ≤ 5 → noReset ps →
    ∃ t u t' u', exec (.enc n v) s = .next t ∧ runEdges ps t = .next u
      ∧ exec (.enc n v) { s with acc := a } = .next t' ∧ runEdges ps t' = .next u'
      ∧ t.acc = s.acc ∧ u.acc = s.acc ∧ t' = { t with acc := a } ∧ u' = { u with acc := a }
      ∧ u.host = s.host ∧ u.drawn = s.drawn

/-! ### DEC (R93 to R111) -/

/-- R98, and what a DEC command that passes its checks does at its accepting edge: DEC_INIT, every other register as before. -/
def Obligations.DecStartsAtAcceptance : Prop :=
  ∀ (k : Count) (d : Digits) (s : State), 2 ≤ k.toNat → k.toNat ≤ 5 →
    (∀ i : Fin 5, i.val < k.toNat → (d.get i).toNat ≤ 84) →
    ∃ t, exec (.dec k d) s = .next t
      ∧ (∀ i : Fin 5, t.dig.get i = if i.val < k.toNat then d.get i else 84)
      ∧ t = { s with op := 1, cnt := k, dig := t.dig, acc := 0, step := 0, phase := .busy }

/-- DEC completes: for every count 2..5, valid digits and state, `exec` starts the command and five edges with `rst` = 0,
whatever else the host drives, end in DONE with R93's response to the padded value V: OVERFLOW for V > 2^32 − 1, else OK with
ocnt k − 1 and the first k − 1 bytes of V, 0x00 in the other places (R101, R102, R117). -/
def Obligations.DecCompletesWithItsBytes : Prop :=
  ∀ (k : Count) (d : Digits) (s : State) (ps : List Pins), 2 ≤ k.toNat → k.toNat ≤ 5 →
    (∀ i : Fin 5, i.val < k.toNat → (d.get i).toNat ≤ 84) → ps.length = 5 → noReset ps →
    let V := ∑ i : Fin 5, (if i.val < k.toNat then (d.get i).toNat else 84) * 85 ^ (4 - i.val)
    ∃ t u, exec (.dec k d) s = .next t ∧ runEdges ps t = .next u ∧ u.phase = .done
      ∧ if 2 ^ 32 - 1 < V then u.rsp = 0x6000000000000000
        else rspStatus u.rsp = 0 ∧ (rspOcnt u.rsp).toNat = k.toNat - 1 ∧ rspEpos u.rsp = 0 ∧ rspZero u.rsp = 0
          ∧ (rspPayload u.rsp).extractLsb 34 32 = 0#3
          ∧ ∀ j : Nat, j < 4 → ((rspDataField u.rsp).extractLsb' (24 - 8 * j) 8).toNat =
              if j < k.toNat - 1 then V / 256 ^ (3 - j) % 256 else 0

/-- R96 and R115: a well-formed DEC command with a digit above 84 below position k is answered INVALID_DIGIT at acceptance with
the least such position, whatever stands at positions k and above. -/
def Obligations.DecInvalidDigitAtLeastPosition : Prop :=
  ∀ (k : Count) (d : Digits) (s : State) (i : Fin 5), 1 ≤ k.toNat → k.toNat ≤ 5 → i.val < k.toNat →
    84 < (d.get i).toNat → (∀ j : Fin 5, j < i → (d.get j).toNat ≤ 84) →
    exec (.dec k d) s = .next { s with rsp := BitVec.ofNat 64 (0x2000000000000000 + i.val * 2 ^ 55), phase := .done }

/-- R97 and R116: a DEC command with k = 1 and d[0] at most 84 is answered TRUNCATED at acceptance, whatever its other digits. -/
def Obligations.DecOneDigitIsTruncated : Prop :=
  ∀ (d : Digits) (s : State), (d.get 0).toNat ≤ 84 →
    exec (.dec 1 d) s = .next { s with rsp := 0x4000000000000000, phase := .done }

/-- R99: a BUSY edge with OP = 1 makes ACC the exact number ACC × 85 + DIG[STEP], in every state the invariant allows (so ACC
never wraps), counts STEP, and leaves DIG, Q, OP, CNT and the host's side as they are; RSP is left too but at the fifth. -/
def Obligations.DecMicroStep : Prop :=
  ∀ (p : Pins) (s : State), p.rst = false → s.phase = .busy → s.op = 1 → StateInv s →
    ∃ t, edge p s = .next t
      ∧ (∀ i : Fin 5, i.val = s.step.toNat → t.acc.toNat = s.acc.toNat * 85 + (s.dig.get i).toNat)
      ∧ t.step.toNat = s.step.toNat + 1
      ∧ t.phase = (if s.step = 4 then .done else .busy)
      ∧ (s.step ≠ 4 → t.rsp = s.rsp)
      ∧ t.dig = s.dig ∧ t.q = s.q ∧ t.op = s.op ∧ t.cnt = s.cnt ∧ t.host = s.host ∧ t.drawn = s.drawn

/-- R101: the fifth BUSY edge of a decoder command leaves in RSP the OVERFLOW word when ACC' is above 2^32 − 1, else the word
{OK, CNT − 1, 0, 20'b0, zext_35(ACC'[31:0] & MASK(CNT − 1))}. -/
def Obligations.DecFinishBuildsResponse : Prop :=
  ∀ (p : Pins) (s : State), p.rst = false → s.phase = .busy → s.op = 1 → s.step = 4 → StateInv s →
    ∃ t, edge p s = .next t ∧ t.phase = .done ∧
      t.rsp = if 2 ^ 32 - 1 < t.acc.toNat then (0x6000000000000000 : Word64)
        else (0#3 ++ (s.cnt - 1) ++ 0#3 ++ 0#20
          ++ ((t.acc.extractLsb 31 0 &&& byteMask (s.cnt.toNat - 1) : GroupWord).setWidth 35 : Payload) : Word64)

/-- R100 and R103: after m of the five micro-steps of a DEC command, ACC = Σ over i < m of DIG[i] × 85^(m−1−i), at most
85^m − 1 and below 2^33; after the fifth it is val of the effective digits. -/
def Obligations.DecHornerSums : Prop :=
  ∀ (k : Count) (d : Digits) (s : State) (ps : List Pins), 2 ≤ k.toNat → k.toNat ≤ 5 →
    (∀ i : Fin 5, i.val < k.toNat → (d.get i).toNat ≤ 84) → ps.length ≤ 5 → noReset ps →
    ∃ t u, exec (.dec k d) s = .next t ∧ runEdges ps t = .next u
      ∧ u.acc.toNat = ∑ i : Fin 5, (if i.val < ps.length then (t.dig.get i).toNat * 85 ^ (ps.length - 1 - i.val) else 0)
      ∧ u.acc.toNat ≤ 85 ^ ps.length - 1 ∧ u.acc.toNat < 2 ^ 33
      ∧ (ps.length = 5 → u.acc.toNat = (effectiveDigits k d).val)

/-- R117: a DEC command of 2..5 valid digits is answered OVERFLOW exactly when its padded value exceeds 2^32 − 1, and no other
command word is answered OVERFLOW. -/
def Obligations.OverflowExactlyAbove32Bits : Prop :=
  ∀ c : Word64, rspStatus (result c) = Status.overflow.code ↔
    ∃ (k : Count) (d : Digits), c = encode (.dec k d) ∧ 2 ≤ k.toNat ∧ k.toNat ≤ 5
      ∧ (∀ i : Fin 5, i.val < k.toNat → (d.get i).toNat ≤ 84) ∧ 2 ^ 32 - 1 < (effectiveDigits k d).val

/-- R104: full groups are a bijection: DEC 5 of the digits of ENC 4, v gives v; ENC 4 of the data of DEC 5, d gives d for every
vector of valid digits with value at most 2^32 − 1; DEC 5 rejects, by OVERFLOW, exactly the vectors of greater value, and there
are 85^5 − 2^32 = 142,085,829 of them. -/
def Obligations.FullGroupsAreABijection : Prop :=
  (∀ v : GroupWord,
    let r := result (encode (.dec 5 (digitFields (result (encode (.enc 4 v))))))
    rspStatus r = Status.ok.code ∧ rspDataField r = v)
  ∧ (∀ d : Digits, (∀ i, (d.get i).toNat ≤ 84) → d.val ≤ 2 ^ 32 - 1 →
      rspStatus (result (encode (.dec 5 d))) = Status.ok.code
      ∧ digitFields (result (encode (.enc 4 (rspDataField (result (encode (.dec 5 d))))))) = d)
  ∧ (∀ d : Digits, (∀ i, (d.get i).toNat ≤ 84) → 2 ^ 32 - 1 < d.val →
      result (encode (.dec 5 d)) = errorWord .overflow 0)
  ∧ (Finset.univ.filter fun f : Fin 5 → Fin 85 => 2 ^ 32 - 1 < ∑ i : Fin 5, (f i).val * 85 ^ (4 - i.val)).card = 142085829

/-- R105: for n in 1..3, DEC n + 1 of the digits that ENC n, v returns gives OK, ocnt n and v with zero pad bytes. -/
def Obligations.TailsRoundTrip : Prop :=
  ∀ (n : Count) (v : GroupWord), 1 ≤ n.toNat → n.toNat ≤ 3 →
    let r := result (encode (.dec (n + 1) (digitFields (result (encode (.enc n v))))))
    rspStatus r = Status.ok.code ∧ rspOcnt r = n ∧ rspDataField r = v &&& byteMask n.toNat

/-- R106: no tail the encoder produces overflows when padded, and the largest padded values are 4,278,608,874 (n = 1),
4,294,908,474 (n = 2) and 4,294,967,124 (n = 3), each of them reached. -/
def Obligations.NoEncodedTailOverflows : Prop :=
  let padded := fun (n : Count) (v : GroupWord) => (effectiveDigits (n + 1) (digitFields (result (encode (.enc n v))))).val
  (∀ (n : Count) (v : GroupWord), 1 ≤ n.toNat → n.toNat ≤ 3 →
    padded n v ≤ (v &&& byteMask n.toNat).toNat + 85 ^ (4 - n.toNat) - 1
      ∧ (v &&& byteMask n.toNat).toNat ≤ 2 ^ 32 - 256 ^ (4 - n.toNat) ∧ padded n v < 2 ^ 32 - 1)
  ∧ (∀ v : GroupWord, padded 1 v ≤ 4278608874 ∧ padded 2 v ≤ 4294908474 ∧ padded 3 v ≤ 4294967124)
  ∧ padded 1 0xFF000000 = 4278608874 ∧ padded 2 0xFFFF0000 = 4294908474 ∧ padded 3 0xFFFFFF00 = 4294967124

/-- R107: the pad digit is 84; padding with any digit below 84 breaks the round trip of some tail, and the rule's examples: the
byte 0x01, digits 0 and 27, and the byte 0xFF, digits 81 and 81, padded with 84 and with 0. -/
def Obligations.OnlyPadDigit84RoundTrips : Prop :=
  let digitsOfTail := fun (n : Count) (v : GroupWord) => digitFields (result (encode (.enc n v)))
  let valueWith := fun (pad : Digit) (n : Count) (v : GroupWord) => (padDigitsWith pad (n + 1) (digitsOfTail n v)).val
  let bytesWith := fun (pad : Digit) (n : Count) (v : GroupWord) =>
    BitVec.ofNat 32 (valueWith pad n v) &&& byteMask n.toNat
  (∀ (k : Count) (d : Digits), effectiveDigits k d = padDigitsWith 84 k d)
  ∧ (∀ pad : Digit, pad.toNat < 84 →
    ∃ (n : Count) (v : GroupWord), 1 ≤ n.toNat ∧ n.toNat ≤ 3 ∧ bytesWith pad n v ≠ v &&& byteMask n.toNat)
  ∧ digitsOfTail 1 0x01000000 = { d0 := 0, d1 := 27, d2 := 0, d3 := 0, d4 := 0 }
  ∧ valueWith 84 1 0x01000000 = 17195499 ∧ bytesWith 84 1 0x01000000 = 0x01000000
  ∧ valueWith 0 1 0x01000000 = 16581375 ∧ bytesWith 0 1 0x01000000 = 0x00000000
  ∧ digitsOfTail 1 0xFF000000 = { d0 := 81, d1 := 81, d2 := 0, d3 := 0, d4 := 0 }
  ∧ bytesWith 84 1 0xFF000000 = 0xFF000000 ∧ valueWith 0 1 0xFF000000 = 0xFEFD04FE ∧ bytesWith 0 1 0xFF000000 = 0xFE000000

/-- R108: a tail of valid digits whose padded value is at most 2^32 − 1 is answered OK with its first k − 1 bytes, whether the
encoder would produce it or not; the rule's examples. -/
def Obligations.TailsNeedNotBeCanonical : Prop :=
  (∀ (k : Count) (d : Digits), 2 ≤ k.toNat → k.toNat ≤ 4 → (∀ i : Fin 5, i.val < k.toNat → (d.get i).toNat ≤ 84) →
    (effectiveDigits k d).val ≤ 2 ^ 32 - 1 →
    let r := result (encode (.dec k d))
    rspStatus r = Status.ok.code ∧ rspOcnt r = k - 1
      ∧ rspDataField r = BitVec.ofNat 32 (effectiveDigits k d).val &&& byteMask (k.toNat - 1))
  ∧ (let two := fun a b : Digit => rspDataField (result (encode (.dec 2 { d0 := a, d1 := b, d2 := 0, d3 := 0, d4 := 0 })))
     two 81 81 = 0xFF000000 ∧ two 81 82 = 0xFF000000 ∧ two 82 0 = 0xFF000000 ∧ two 81 80 = 0xFE000000)

/-- R110: digit fields at positions k to 4 are neither validated nor used, and the rule's example. -/
def Obligations.DecIgnoresMissingDigits : Prop :=
  (∀ (k : Count) (d e : Digits) (s : State), (∀ i : Fin 5, i.val < k.toNat → d.get i = e.get i) →
    exec (.dec k d) s = exec (.dec k e) s)
  ∧ result (encode (.dec 4 { d0 := 0, d1 := 0, d2 := 0, d3 := 0, d4 := 85 })) = 0x0C00000000000000

/-- R111: a DEC command neither reads nor writes Q: from its acceptance through its five BUSY edges, another value in Q
changes nothing but Q itself, which keeps it; and of the registers only OP, CNT, DIG, ACC, STEP, RSP and PHASE are written. -/
def Obligations.DecLeavesQAlone : Prop :=
  ∀ (k : Count) (d : Digits) (s : State) (x : BitVec 32) (ps : List Pins),
    2 ≤ k.toNat → k.toNat ≤ 5 → (∀ i : Fin 5, i.val < k.toNat → (d.get i).toNat ≤ 84) → ps.length ≤ 5 → noReset ps →
    ∃ t u t' u', exec (.dec k d) s = .next t ∧ runEdges ps t = .next u
      ∧ exec (.dec k d) { s with q := x } = .next t' ∧ runEdges ps t' = .next u'
      ∧ t.q = s.q ∧ u.q = s.q ∧ t' = { t with q := x } ∧ u' = { u with q := x }
      ∧ u.host = s.host ∧ u.drawn = s.drawn

/-! ### Responses and errors (R12, R66 to R70, R113, R121, R123) -/

/-- R121: the response word of each error, what `check` reports with it, and that no error returns a part of a result. -/
def Obligations.ErrorResponseWords : Prop :=
  (∀ (s : Status) (p : Count), errorWord s p = s.code ++ (0 : Count) ++ p ++ 0#20 ++ (0 : Payload))
  ∧ errorWord .illegalCmd 0 = 0x8000000000000000 ∧ errorWord .truncated 0 = 0x4000000000000000
  ∧ errorWord .overflow 0 = 0x6000000000000000
  ∧ (∀ p : Count, p.toNat ≤ 4 → errorWord .invalidDigit p = BitVec.ofNat 64 (0x2000000000000000 + p.toNat * 2 ^ 55))
  ∧ errorWord .invalidDigit 4 = 0x2200000000000000
  ∧ (∀ c : Word64, (check c).1 ≠ .ok → result c = errorWord (check c).1 (check c).2)
  ∧ (∀ c : Word64, (check c).1 ≠ .invalidDigit → (check c).2 = 0)
  ∧ (∀ c : Word64, rspStatus (result c) ≠ 0 → rspOcnt (result c) = 0 ∧ rspPayload (result c) = 0)

/-- R67, R68 and R69: for every command word, the status answered is 0 to 4, `ocnt` is n + 1 for a successful ENC, k − 1 for a
successful DEC and 0 in every error, and `epos` is the place of the lowest invalid digit in INVALID_DIGIT and 0 otherwise. -/
def Obligations.ResponseFieldsOfEveryWord : Prop :=
  ∀ c : Word64,
    (rspStatus (result c)).toNat ≤ 4
    ∧ (rspStatus (result c) ≠ 0 → rspOcnt (result c) = 0)
    ∧ (∀ n v, decode c = .ok (.enc n v) → rspStatus (result c) = 0 →
        (rspOcnt (result c)).toNat = n.toNat + 1 ∧ 1 ≤ n.toNat ∧ n.toNat ≤ 4)
    ∧ (∀ k d, decode c = .ok (.dec k d) → rspStatus (result c) = 0 →
        (rspOcnt (result c)).toNat + 1 = k.toNat ∧ 2 ≤ k.toNat ∧ k.toNat ≤ 5)
    ∧ (rspStatus (result c) = 1 → ∃ k d, decode c = .ok (.dec k d) ∧
        ∃ i : Fin 5, (rspEpos (result c)).toNat = i.val ∧ i.val < k.toNat ∧ 84 < (d.get i).toNat
          ∧ ∀ j : Fin 5, j < i → (d.get j).toNat ≤ 84)
    ∧ (rspStatus (result c) ≠ 1 → rspEpos (result c) = 0)

/-- R123: an error found at acceptance changes nothing but RSP and takes PHASE to DONE at once; an OVERFLOW goes through BUSY
like a success; and from IDLE, whatever the registers hold, the block behaves as it does after reset. -/
def Obligations.ErrorsLeaveNoTrace : Prop :=
  (∀ (c : Word64) (s : State), (check c).1 ≠ .ok → accept c s = .next { s with rsp := result c, phase := .done })
  ∧ (∀ (c : Word64) (s : State) (ps : List Pins), result c = errorWord .overflow 0 → ps.length ≤ 5 → noReset ps →
      ∃ t u, accept c s = .next t ∧ t.phase = .busy ∧ runEdges ps t = .next u
        ∧ u.phase = if ps.length = 5 then .done else .busy)
  ∧ (∀ (ps : List Pins) (s : State), s.phase = .idle →
      accepted ps s = accepted ps State.reset ∧ responses ps s = responses ps State.reset)

/-! ### Whole-machine statements -/

/-- Decoding and encoding agree (tier 3): every command, at every value of its operands, is read back from its word, and a word
that decodes is the word of what it decodes to. -/
def Obligations.DecodeAndEncodeAgree : Prop :=
  (∀ i : Instr, decode (encode i) = .ok i) ∧ (∀ (c : Word64) (i : Instr), decode c = .ok i → encode i = c)

/-- Five worked encodings of R77 decode to their commands, and two words that are no commands of R77 are refused: one with
op = 10 (R59) and R72's example with bit 32 set. The names `reservedOp` and `reservedBits` are the model's choice (log
entry 10); the block answers both words alike. -/
def Obligations.WorkedWordsDecode : Prop :=
  decode 0x200000004D616E20 = .ok (.enc 4 0x4D616E20) ∧ decode 0x08000000FF000000 = .ok (.enc 1 0xFF000000)
    ∧ decode 0x680000018934273D = .ok (.dec 5 { d0 := 24, d1 := 73, d2 := 80, d3 := 78, d4 := 61 })
    ∧ decode 0x500000051A200000 = .ok (.dec 2 { d0 := 81, d1 := 81, d2 := 0, d3 := 0, d4 := 0 })
    ∧ decode 0x6800000522ED8601 = .ok (.dec 5 { d0 := 82, d1 := 23, d2 := 54, d3 := 12, d4 := 1 })
    ∧ decode 0x8000000000000000 = .error .reservedOp ∧ decode 0x2000000100000000 = .error .reservedBits

/-- The invariant of the registers holds after reset. -/
def Obligations.InvHoldsAtReset : Prop := StateInv State.reset

/-- Every step keeps the invariant of the registers (tier 3): STEP and CNT in range, valid digits in DIG, ACC within
85^5 − 1, a response word the block produces in RSP. -/
def Obligations.EveryStepKeepsInv : Prop :=
  ∀ s t : State, StateInv s → step s = .next t → StateInv t

/-- R113: the block raises no exception: in every state the invariant allows, a step answers a next state, whatever the host
drives; and both commands do so in every state. -/
def Obligations.NoStepStops : Prop :=
  (∀ s : State, StateInv s → ∃ t, step s = .next t)
  ∧ (∀ (i : Instr) (s : State), ∃ t, exec i s = .next t)

/-- R39 (tier 3): every accepted command is answered with RESULT of its word: at the accepting edge when the check finds an
error, else after five BUSY edges with `rst` = 0, whatever the registers held and whatever else the host drives. And R143: from
IDLE, a sequence of commands has ended exactly when its commands have transferred, no offer still stands and the block is
quiescent, resets among the edges or not (no response is owed then); what counts as an offer is the model's choice, DEDUCED
from R135 (log entry 13). Where no reset dropped a command, all its results have transferred. -/
def Obligations.AcceptedCommandGetsItsResult : Prop :=
  (∀ (p : Pins) (ps : List Pins) (s : State), cmdTransfers p s = true → noReset ps →
    ((check p.cmdData).1 ≠ .ok →
      ∃ t, edge p s = .next t ∧ t.phase = .done ∧ t.rsp = result p.cmdData)
    ∧ ((check p.cmdData).1 = .ok → ps.length = 5 →
      ∃ t, runEdges (p :: ps) s = .next t ∧ t.phase = .done ∧ t.rsp = result p.cmdData)
    ∧ ((check p.cmdData).1 = .ok → ps.length < 5 → ∃ t, runEdges (p :: ps) s = .next t ∧ t.phase = .busy))
  ∧ (∀ (cs : List Word64) (ps : List Pins) (rst : Bool) (s t : State), s.phase = .idle → runEdges ps s = .next t →
      (sequenceEnded cs ps rst s ↔
        accepted ps s = cs ∧ offerStands ps s = false ∧ t.phase = .idle ∧ rst = false))
  ∧ (∀ (cs : List Word64) (ps : List Pins) (rst : Bool) (s : State), s.phase = .idle → noReset ps →
      sequenceEnded cs ps rst s → responses ps s = cs.map result)

/-- R40 (tier 3): over any edges without a reset, from IDLE, the responses that transfer are RESULT of the accepted commands, in
the order of acceptance, one for each, with at most one command still unanswered. -/
def Obligations.ResponsesInOrderOneForEach : Prop :=
  ∀ (ps : List Pins) (s : State), s.phase = .idle → noReset ps →
    responses ps s <+: (accepted ps s).map result
    ∧ (accepted ps s).length ≤ (responses ps s).length + 1

/-- R16 (tier 3): from IDLE, what transfers depends on nothing the registers hold: two such states give the same accepted
commands and the same responses to the same pins, resets among them or not. -/
def Obligations.ResultDependsOnlyOnTheCommand : Prop :=
  (∀ (ps : List Pins) (s t : State), s.phase = .idle → t.phase = .idle →
    accepted ps s = accepted ps t ∧ responses ps s = responses ps t)
  ∧ (∀ (p p' : Pins) (ps ps' : List Pins) (s t u u' : State), cmdTransfers p s = true → cmdTransfers p' t = true →
      p'.cmdData = p.cmdData → noReset ps → noReset ps' →
      runEdges (p :: ps) s = .next u → runEdges (p' :: ps') t = .next u' → u.phase = .done → u'.phase = .done →
      (∀ q ∈ ps, q.rspReady = false) → (∀ q ∈ ps', q.rspReady = false) →
      u.rsp = u'.rsp)

/-- R140: with `rsp_ready` = 1 as soon as there is a response, a computing command's response transfers at edge E6 and the next
command at E7, one answered at acceptance at E1 and E2, and nothing transfers at the edges between. -/
def Obligations.EdgesPerCommand : Prop :=
  ∀ (c c' : Word64) (s : State) (ps : List Pins),
    s.phase = .idle →
    (∀ p ∈ ps, p.rst = false ∧ p.rspReady = true ∧ p.cmdValid = true ∧ p.cmdData = c') →
    let first : Pins := { rst := false, cmdValid := true, cmdData := c, rspReady := true }
    ((check c).1 = .ok →
      (ps.length = 5 → accepted (first :: ps) s = [c] ∧ responses (first :: ps) s = [])
      ∧ (ps.length = 6 → accepted (first :: ps) s = [c] ∧ responses (first :: ps) s = [result c])
      ∧ (ps.length = 7 → accepted (first :: ps) s = [c, c'] ∧ responses (first :: ps) s = [result c]))
    ∧ ((check c).1 ≠ .ok →
      (ps.length = 0 → accepted (first :: ps) s = [c] ∧ responses (first :: ps) s = [])
      ∧ (ps.length = 1 → accepted (first :: ps) s = [c] ∧ responses (first :: ps) s = [result c])
      ∧ (ps.length = 2 → accepted (first :: ps) s = [c, c'] ∧ responses (first :: ps) s = [result c]))

/-! ### The assembler (R75, R76) -/

/-- R75 and R76: a written command whose operands fit their fields has the word of R58's fields with every reserved bit 0,
counts and digits the block answers with an error included; one that does not fit is refused; the pseudo-form of k < 5 digits
is the full form with 0 in the missing places. -/
def Obligations.AssemblerPlacesOperands : Prop :=
  (∀ n v : Nat, assemble (.enc n v) =
    if n ≤ 7 ∧ v ≤ 0xFFFFFFFF then some (BitVec.ofNat 64 (n * 2 ^ 59 + v)) else none)
  ∧ (∀ k a b c d e : Nat, assemble (.dec k [a, b, c, d, e]) =
      if k ≤ 7 ∧ a ≤ 127 ∧ b ≤ 127 ∧ c ≤ 127 ∧ d ≤ 127 ∧ e ≤ 127 then
        some (BitVec.ofNat 64
          (2 ^ 62 + k * 2 ^ 59 + a * 2 ^ 28 + b * 2 ^ 21 + c * 2 ^ 14 + d * 2 ^ 7 + e))
      else none)
  ∧ (∀ ds : List Nat, ds.length < 5 →
      assemble (.dec ds.length ds) = assemble (.dec ds.length (ds ++ List.replicate (5 - ds.length) 0)))

/-! ### The host wrapper (R52 to R57) -/

/-- R53 and R55: the length laws of the wrapper, the encoder's whatever stands in the ignored low bytes of a tail, the
decoder's for a text that decodes. -/
def Obligations.BufferLengthLaws : Prop :=
  (∀ (fill : GroupWord) (bs : List Byte),
    (encodeBuffer fill bs).length
      = 5 * (bs.length / 4) + (if bs.length % 4 = 0 then 0 else bs.length % 4 + 1))
  ∧ (∀ (ds : List Digit) (bs : List Byte), decodeBuffer ds = .ok bs →
      ds.length % 5 ≠ 1 ∧ bs.length = 4 * (ds.length / 5) + (ds.length % 5 - 1))

/-- R56 (tier 3): for every byte sequence, decoding what encoding produces gives it back, whatever stands in the ignored low
bytes of a tail, on digits and through every alphabet. -/
def Obligations.BuffersRoundTrip : Prop :=
  (∀ (fill : GroupWord) (bs : List Byte), decodeBuffer (encodeBuffer fill bs) = .ok bs)
  ∧ (∀ (alphabet : List Char) (fill : GroupWord) (bs : List Byte), alphabetOk alphabet = true →
      decodeText alphabet (encodeText alphabet fill bs) = .ok bs)

/-- R54 and R57: a character outside the alphabet is reported at the first position it stands at, before any command; a text of
length 5q + 1 over the alphabet is TruncatedInput of its length; and a wrapper that maps characters first meets no other
InvalidCharacter. That TruncatedInput comes before the Overflow of an earlier chunk is the model's choice, DEDUCED from the
order in R54 (log entry 11): spec/91_not_in_source.md says that a reader must not assume either order. -/
def Obligations.WrapperErrorsOfTexts : Prop :=
  ∀ (alphabet : List Char) (cs : List Char), alphabetOk alphabet = true →
    (∀ i : Nat, i < cs.length → (∀ j : Nat, j < i → cs.getD j ' ' ∈ alphabet) → cs.getD i ' ' ∉ alphabet →
      decodeText alphabet cs = .error (.invalidCharacter i))
    ∧ ((∀ ch ∈ cs, ch ∈ alphabet) →
        (cs.length % 5 = 1 → decodeText alphabet cs = .error (.truncatedInput cs.length))
        ∧ (∀ i : Nat, decodeText alphabet cs ≠ .error (.invalidCharacter i)))

/-- The chunks of R54 and the error arguments of R57. A digit above 84 at position p of chunk c is InvalidCharacter(5c + p) with
the least such p, a chunk of valid digits whose padded value V exceeds 2^32 − 1 is Overflow(c), and one with a value that fits
gives the first k − 1 bytes of V. Chunk j of a text is its digits from 5j on, at most five, and j is its index: the bytes of
the chunks are put together in order, and the first chunk with an error decides (the model's choice, log entry 11). -/
def Obligations.WrapperErrorsOfChunks : Prop :=
  (∀ (T c : Nat) (ds : List Digit), 2 ≤ ds.length → ds.length ≤ 5 →
    (∀ p : Nat, p < ds.length → 84 < (ds.getD p 0).toNat → (∀ j : Nat, j < p → (ds.getD j 0).toNat ≤ 84) →
      decodeChunk T c ds = .error (.invalidCharacter (5 * c + p)))
    ∧ ((∀ d ∈ ds, d.toNat ≤ 84) →
        let V := (effectiveDigits (BitVec.ofNat 3 ds.length) (issueDigits ds)).val
        (2 ^ 32 - 1 < V → decodeChunk T c ds = .error (.overflow c))
        ∧ (V ≤ 2 ^ 32 - 1 → decodeChunk T c ds = .ok ((dataBytes (BitVec.ofNat 32 V)).take (ds.length - 1)))))
  ∧ (∀ ds : List Digit, ds.length % 5 ≠ 1 →
      let chunk := fun j : Nat => (ds.drop (5 * j)).take 5
      (∀ (j : Nat) (e : DecodeTextError), 5 * j < ds.length →
        (∀ i : Nat, i < j → ∃ bs, decodeChunk ds.length i (chunk i) = .ok bs) →
        decodeChunk ds.length j (chunk j) = .error e → decodeBuffer ds = .error e)
      ∧ (∀ bss : List (List Byte), bss.length = (ds.length + 4) / 5 →
          (∀ j : Nat, j < bss.length → decodeChunk ds.length j (chunk j) = .ok (bss.getD j [])) →
          decodeBuffer ds = .ok bss.flatten))
end

