-- ==== Sys2Proof/Laws/State.lean ====
section
/-! SUPPORT. One lemma per field and update of State, so that no later proof unfolds a record update. -/

namespace Sys2Proof.Machine

/-! ### `answer` -/

@[simp] theorem answer_phase (w : Word64) (s : State) : (answer w s).phase = .done := rfl
@[simp] theorem answer_op (w : Word64) (s : State) : (answer w s).op = s.op := rfl
@[simp] theorem answer_cnt (w : Word64) (s : State) : (answer w s).cnt = s.cnt := rfl
@[simp] theorem answer_step (w : Word64) (s : State) : (answer w s).step = s.step := rfl
@[simp] theorem answer_q (w : Word64) (s : State) : (answer w s).q = s.q := rfl
@[simp] theorem answer_acc (w : Word64) (s : State) : (answer w s).acc = s.acc := rfl
@[simp] theorem answer_dig (w : Word64) (s : State) : (answer w s).dig = s.dig := rfl
@[simp] theorem answer_rsp (w : Word64) (s : State) : (answer w s).rsp = w := rfl
@[simp] theorem answer_host (w : Word64) (s : State) : (answer w s).host = s.host := rfl
@[simp] theorem answer_drawn (w : Word64) (s : State) : (answer w s).drawn = s.drawn := rfl

/-! ### `answerError` -/

@[simp] theorem answerError_phase (st : Status) (p : Count) (s : State) : (answerError st p s).phase = .done := rfl
@[simp] theorem answerError_op (st : Status) (p : Count) (s : State) : (answerError st p s).op = s.op := rfl
@[simp] theorem answerError_cnt (st : Status) (p : Count) (s : State) : (answerError st p s).cnt = s.cnt := rfl
@[simp] theorem answerError_step (st : Status) (p : Count) (s : State) : (answerError st p s).step = s.step := rfl
@[simp] theorem answerError_q (st : Status) (p : Count) (s : State) : (answerError st p s).q = s.q := rfl
@[simp] theorem answerError_acc (st : Status) (p : Count) (s : State) : (answerError st p s).acc = s.acc := rfl
@[simp] theorem answerError_dig (st : Status) (p : Count) (s : State) : (answerError st p s).dig = s.dig := rfl
@[simp] theorem answerError_rsp (st : Status) (p : Count) (s : State) : (answerError st p s).rsp = errorWord st p := rfl
@[simp] theorem answerError_host (st : Status) (p : Count) (s : State) : (answerError st p s).host = s.host := rfl
@[simp] theorem answerError_drawn (st : Status) (p : Count) (s : State) : (answerError st p s).drawn = s.drawn := rfl

/-! ### `takeResponse` -/

@[simp] theorem takeResponse_phase (s : State) : (takeResponse s).phase = .idle := rfl
@[simp] theorem takeResponse_op (s : State) : (takeResponse s).op = s.op := rfl
@[simp] theorem takeResponse_cnt (s : State) : (takeResponse s).cnt = s.cnt := rfl
@[simp] theorem takeResponse_step (s : State) : (takeResponse s).step = s.step := rfl
@[simp] theorem takeResponse_q (s : State) : (takeResponse s).q = s.q := rfl
@[simp] theorem takeResponse_acc (s : State) : (takeResponse s).acc = s.acc := rfl
@[simp] theorem takeResponse_dig (s : State) : (takeResponse s).dig = s.dig := rfl
@[simp] theorem takeResponse_rsp (s : State) : (takeResponse s).rsp = s.rsp := rfl
@[simp] theorem takeResponse_host (s : State) : (takeResponse s).host = s.host := rfl
@[simp] theorem takeResponse_drawn (s : State) : (takeResponse s).drawn = s.drawn := rfl

/-! ### `applyReset` -/

@[simp] theorem applyReset_phase (s : State) : (applyReset s).phase = .idle := rfl
@[simp] theorem applyReset_op (s : State) : (applyReset s).op = 0 := rfl
@[simp] theorem applyReset_cnt (s : State) : (applyReset s).cnt = 0 := rfl
@[simp] theorem applyReset_step (s : State) : (applyReset s).step = 0 := rfl
@[simp] theorem applyReset_q (s : State) : (applyReset s).q = 0 := rfl
@[simp] theorem applyReset_acc (s : State) : (applyReset s).acc = 0 := rfl
@[simp] theorem applyReset_dig (s : State) : (applyReset s).dig = zeroDigits := rfl
@[simp] theorem applyReset_rsp (s : State) : (applyReset s).rsp = 0 := rfl
@[simp] theorem applyReset_host (s : State) : (applyReset s).host = s.host := rfl
@[simp] theorem applyReset_drawn (s : State) : (applyReset s).drawn = s.drawn := rfl

/-! ### `encInit` -/

@[simp] theorem encInit_phase (n : Count) (v : GroupWord) (s : State) : (encInit n v s).phase = .busy := rfl
@[simp] theorem encInit_op (n : Count) (v : GroupWord) (s : State) : (encInit n v s).op = 0 := rfl
@[simp] theorem encInit_cnt (n : Count) (v : GroupWord) (s : State) : (encInit n v s).cnt = n := rfl
@[simp] theorem encInit_step (n : Count) (v : GroupWord) (s : State) : (encInit n v s).step = 0 := rfl
@[simp] theorem encInit_q (n : Count) (v : GroupWord) (s : State) : (encInit n v s).q = realBytes n v := rfl
@[simp] theorem encInit_acc (n : Count) (v : GroupWord) (s : State) : (encInit n v s).acc = s.acc := rfl
@[simp] theorem encInit_dig (n : Count) (v : GroupWord) (s : State) : (encInit n v s).dig = zeroDigits := rfl
@[simp] theorem encInit_rsp (n : Count) (v : GroupWord) (s : State) : (encInit n v s).rsp = s.rsp := rfl
@[simp] theorem encInit_host (n : Count) (v : GroupWord) (s : State) : (encInit n v s).host = s.host := rfl
@[simp] theorem encInit_drawn (n : Count) (v : GroupWord) (s : State) : (encInit n v s).drawn = s.drawn := rfl

/-! ### `encStep` -/

@[simp] theorem encStep_phase (i : Fin 5) (s : State) : (encStep i s).phase = s.phase := rfl
@[simp] theorem encStep_op (i : Fin 5) (s : State) : (encStep i s).op = s.op := rfl
@[simp] theorem encStep_cnt (i : Fin 5) (s : State) : (encStep i s).cnt = s.cnt := rfl
@[simp] theorem encStep_step (i : Fin 5) (s : State) : (encStep i s).step = s.step := rfl
@[simp] theorem encStep_q (i : Fin 5) (s : State) : (encStep i s).q = BitVec.ofNat 32 (s.q.toNat / Config.radix) := rfl
@[simp] theorem encStep_acc (i : Fin 5) (s : State) : (encStep i s).acc = s.acc := rfl
@[simp] theorem encStep_dig (i : Fin 5) (s : State) : (encStep i s).dig = s.dig.set i.rev (BitVec.ofNat 7 (s.q.toNat % Config.radix)) := rfl
@[simp] theorem encStep_rsp (i : Fin 5) (s : State) : (encStep i s).rsp = s.rsp := rfl
@[simp] theorem encStep_host (i : Fin 5) (s : State) : (encStep i s).host = s.host := rfl
@[simp] theorem encStep_drawn (i : Fin 5) (s : State) : (encStep i s).drawn = s.drawn := rfl

/-! ### `encFinish` -/

@[simp] theorem encFinish_phase (s : State) : (encFinish s).phase = .done := rfl
@[simp] theorem encFinish_op (s : State) : (encFinish s).op = s.op := rfl
@[simp] theorem encFinish_cnt (s : State) : (encFinish s).cnt = s.cnt := rfl
@[simp] theorem encFinish_step (s : State) : (encFinish s).step = s.step := rfl
@[simp] theorem encFinish_q (s : State) : (encFinish s).q = s.q := rfl
@[simp] theorem encFinish_acc (s : State) : (encFinish s).acc = s.acc := rfl
@[simp] theorem encFinish_dig (s : State) : (encFinish s).dig = s.dig := rfl
@[simp] theorem encFinish_rsp (s : State) : (encFinish s).rsp = encWord s.cnt s.dig := rfl
@[simp] theorem encFinish_host (s : State) : (encFinish s).host = s.host := rfl
@[simp] theorem encFinish_drawn (s : State) : (encFinish s).drawn = s.drawn := rfl

/-! ### `decInit` -/

@[simp] theorem decInit_phase (k : Count) (d : Digits) (s : State) : (decInit k d s).phase = .busy := rfl
@[simp] theorem decInit_op (k : Count) (d : Digits) (s : State) : (decInit k d s).op = 1 := rfl
@[simp] theorem decInit_cnt (k : Count) (d : Digits) (s : State) : (decInit k d s).cnt = k := rfl
@[simp] theorem decInit_step (k : Count) (d : Digits) (s : State) : (decInit k d s).step = 0 := rfl
@[simp] theorem decInit_q (k : Count) (d : Digits) (s : State) : (decInit k d s).q = s.q := rfl
@[simp] theorem decInit_acc (k : Count) (d : Digits) (s : State) : (decInit k d s).acc = 0 := rfl
@[simp] theorem decInit_dig (k : Count) (d : Digits) (s : State) : (decInit k d s).dig = effectiveDigits k d := rfl
@[simp] theorem decInit_rsp (k : Count) (d : Digits) (s : State) : (decInit k d s).rsp = s.rsp := rfl
@[simp] theorem decInit_host (k : Count) (d : Digits) (s : State) : (decInit k d s).host = s.host := rfl
@[simp] theorem decInit_drawn (k : Count) (d : Digits) (s : State) : (decInit k d s).drawn = s.drawn := rfl

/-! ### `accumulate` -/

@[simp] theorem accumulate_phase (i : Fin 5) (s : State) : (accumulate i s).phase = s.phase := rfl
@[simp] theorem accumulate_op (i : Fin 5) (s : State) : (accumulate i s).op = s.op := rfl
@[simp] theorem accumulate_cnt (i : Fin 5) (s : State) : (accumulate i s).cnt = s.cnt := rfl
@[simp] theorem accumulate_step (i : Fin 5) (s : State) : (accumulate i s).step = s.step := rfl
@[simp] theorem accumulate_q (i : Fin 5) (s : State) : (accumulate i s).q = s.q := rfl
@[simp] theorem accumulate_acc (i : Fin 5) (s : State) : (accumulate i s).acc = BitVec.ofNat 33 (hornerValue i s) := rfl
@[simp] theorem accumulate_dig (i : Fin 5) (s : State) : (accumulate i s).dig = s.dig := rfl
@[simp] theorem accumulate_rsp (i : Fin 5) (s : State) : (accumulate i s).rsp = s.rsp := rfl
@[simp] theorem accumulate_host (i : Fin 5) (s : State) : (accumulate i s).host = s.host := rfl
@[simp] theorem accumulate_drawn (i : Fin 5) (s : State) : (accumulate i s).drawn = s.drawn := rfl

/-! ### `decFinish` -/

@[simp] theorem decFinish_phase (s : State) : (decFinish s).phase = .done := rfl
@[simp] theorem decFinish_op (s : State) : (decFinish s).op = s.op := rfl
@[simp] theorem decFinish_cnt (s : State) : (decFinish s).cnt = s.cnt := rfl
@[simp] theorem decFinish_step (s : State) : (decFinish s).step = s.step := rfl
@[simp] theorem decFinish_q (s : State) : (decFinish s).q = s.q := rfl
@[simp] theorem decFinish_acc (s : State) : (decFinish s).acc = s.acc := rfl
@[simp] theorem decFinish_dig (s : State) : (decFinish s).dig = s.dig := rfl
@[simp] theorem decFinish_rsp (s : State) : (decFinish s).rsp = decWord s.cnt s.acc.toNat := rfl
@[simp] theorem decFinish_host (s : State) : (decFinish s).host = s.host := rfl
@[simp] theorem decFinish_drawn (s : State) : (decFinish s).drawn = s.drawn := rfl

/-! ### `countStep` -/

@[simp] theorem countStep_phase (s : State) : (countStep s).phase = s.phase := rfl
@[simp] theorem countStep_op (s : State) : (countStep s).op = s.op := rfl
@[simp] theorem countStep_cnt (s : State) : (countStep s).cnt = s.cnt := rfl
@[simp] theorem countStep_step (s : State) : (countStep s).step = s.step + 1 := rfl
@[simp] theorem countStep_q (s : State) : (countStep s).q = s.q := rfl
@[simp] theorem countStep_acc (s : State) : (countStep s).acc = s.acc := rfl
@[simp] theorem countStep_dig (s : State) : (countStep s).dig = s.dig := rfl
@[simp] theorem countStep_rsp (s : State) : (countStep s).rsp = s.rsp := rfl
@[simp] theorem countStep_host (s : State) : (countStep s).host = s.host := rfl
@[simp] theorem countStep_drawn (s : State) : (countStep s).drawn = s.drawn := rfl

/-! ### `offerCommand` -/

@[simp] theorem offerCommand_phase (c : Word64) (s : State) : (offerCommand c s).phase = .idle := rfl
@[simp] theorem offerCommand_op (c : Word64) (s : State) : (offerCommand c s).op = s.op := rfl
@[simp] theorem offerCommand_cnt (c : Word64) (s : State) : (offerCommand c s).cnt = s.cnt := rfl
@[simp] theorem offerCommand_step (c : Word64) (s : State) : (offerCommand c s).step = s.step := rfl
@[simp] theorem offerCommand_q (c : Word64) (s : State) : (offerCommand c s).q = s.q := rfl
@[simp] theorem offerCommand_acc (c : Word64) (s : State) : (offerCommand c s).acc = s.acc := rfl
@[simp] theorem offerCommand_dig (c : Word64) (s : State) : (offerCommand c s).dig = s.dig := rfl
@[simp] theorem offerCommand_rsp (c : Word64) (s : State) : (offerCommand c s).rsp = s.rsp := rfl
@[simp] theorem offerCommand_host (c : Word64) (s : State) : (offerCommand c s).host = offerPins c :: s.host := rfl
@[simp] theorem offerCommand_drawn (c : Word64) (s : State) : (offerCommand c s).drawn = s.drawn := rfl

/-! ### `advance`: the registers are untouched, the list or the counter moves -/

@[simp] theorem advance_phase (s : State) : (advance s).phase = s.phase := by unfold advance; split <;> rfl
@[simp] theorem advance_op (s : State) : (advance s).op = s.op := by unfold advance; split <;> rfl
@[simp] theorem advance_cnt (s : State) : (advance s).cnt = s.cnt := by unfold advance; split <;> rfl
@[simp] theorem advance_step (s : State) : (advance s).step = s.step := by unfold advance; split <;> rfl
@[simp] theorem advance_q (s : State) : (advance s).q = s.q := by unfold advance; split <;> rfl
@[simp] theorem advance_acc (s : State) : (advance s).acc = s.acc := by unfold advance; split <;> rfl
@[simp] theorem advance_dig (s : State) : (advance s).dig = s.dig := by unfold advance; split <;> rfl
@[simp] theorem advance_rsp (s : State) : (advance s).rsp = s.rsp := by unfold advance; split <;> rfl

theorem advance_listed (s : State) (p : Pins) (ps : List Pins) (h : s.host = p :: ps) :
    advance s = { s with host := ps } := by simp [advance, h]

theorem pinsNow_listed (s : State) (p : Pins) (ps : List Pins) (h : s.host = p :: ps) : pinsNow s = p := by
  simp [pinsNow, h]

theorem pinsNow_free (s : State) (h : s.host = []) : pinsNow s = Config.freePins s.drawn := by simp [pinsNow, h]

theorem offerCommand_pinsNow (c : Word64) (s : State) : pinsNow (offerCommand c s) = offerPins c := rfl

theorem offerCommand_advance (c : Word64) (s : State) : advance (offerCommand c s) = { s with phase := .idle } := rfl

end Sys2Proof.Machine
end

