-- ==== Sys2Proof/Laws/Words.lean ====
section
/-! SUPPORT. The fields of command and response words, the opcode map's masks as fields, and digit places read and written. -/

namespace Sys2Proof
open Machine

/-! ### Digit places -/

@[simp] theorem Digits.get_set_same (d : Digits) (i : Fin 5) (x : Digit) : (d.set i x).get i = x := by
  fin_cases i <;> rfl

theorem Digits.get_set_other (d : Digits) (i j : Fin 5) (x : Digit) (h : j ≠ i) : (d.set i x).get j = d.get j := by
  fin_cases i <;> fin_cases j <;> first | rfl | exact absurd rfl h

@[simp] theorem Digits.get_ofFn (f : Fin 5 → Digit) (i : Fin 5) : (Digits.ofFn f).get i = f i := by
  fin_cases i <;> rfl

theorem Digits.eq_of_get {a b : Digits} (h : ∀ i, a.get i = b.get i) : a = b := by
  obtain ⟨a0, a1, a2, a3, a4⟩ := a
  obtain ⟨b0, b1, b2, b3, b4⟩ := b
  exact congr (congr (congr (congr (congrArg Digits.mk (h 0)) (h 1)) (h 2)) (h 3)) (h 4)

theorem Digits.val_eq_sum (d : Digits) : d.val = ∑ i : Fin 5, (d.get i).toNat * 85 ^ (4 - i.val) := by
  simp [Digits.val, Digits.get, Config.radix, Fin.sum_univ_five]

@[simp] theorem zeroDigits_get (i : Fin 5) : zeroDigits.get i = 0 := by fin_cases i <;> rfl

theorem effectiveDigits_get (k : Count) (d : Digits) (i : Fin 5) :
    (effectiveDigits k d).get i = if i.val < k.toNat then d.get i else 84 := by
  simp [effectiveDigits, padDigitsWith, Config.padDigit]

theorem keptDigits_get (n : Count) (d : Digits) (i : Fin 5) :
    (keptDigits n d).get i = if i.val ≤ n.toNat then d.get i else 0 := by
  simp [keptDigits]

/-! ### Response words -/

@[simp] theorem rspStatus_respond (s : Status) (oc ep : Count) (pl : Payload) :
    rspStatus (respond s oc ep pl) = s.code := by
  apply BitVec.eq_of_getLsbD_eq; intro i hi; simp [rspStatus, respond]; grind

@[simp] theorem rspOcnt_respond (s : Status) (oc ep : Count) (pl : Payload) : rspOcnt (respond s oc ep pl) = oc := by
  apply BitVec.eq_of_getLsbD_eq; intro i hi; simp [rspOcnt, respond]; grind

@[simp] theorem rspEpos_respond (s : Status) (oc ep : Count) (pl : Payload) : rspEpos (respond s oc ep pl) = ep := by
  apply BitVec.eq_of_getLsbD_eq; intro i hi; simp [rspEpos, respond]; grind

@[simp] theorem rspZero_respond (s : Status) (oc ep : Count) (pl : Payload) : rspZero (respond s oc ep pl) = 0 := by
  apply BitVec.eq_of_getLsbD_eq; intro i hi; simp [rspZero, respond]; grind

@[simp] theorem rspPayload_respond (s : Status) (oc ep : Count) (pl : Payload) :
    rspPayload (respond s oc ep pl) = pl := by
  apply BitVec.eq_of_getLsbD_eq; intro i hi; simp [rspPayload, respond]; grind

@[simp] theorem rspDataField_respond (s : Status) (oc ep : Count) (x : GroupWord) :
    rspDataField (respond s oc ep (x.setWidth 35)) = x := by
  apply BitVec.eq_of_getLsbD_eq; intro i hi; simp [rspDataField, respond]; grind

@[simp] theorem digitFields_respond (s : Status) (oc ep : Count) (d : Digits) :
    digitFields (respond s oc ep (packDigits d)) = d := by
  obtain ⟨d0, d1, d2, d3, d4⟩ := d
  simp only [digitFields, packDigits, respond, Digits.mk.injEq]
  refine ⟨?_, ?_, ?_, ?_, ?_⟩ <;> (apply BitVec.eq_of_getLsbD_eq; intro i hi; simp; grind)

/-- What `respond` leaves in the digit fields where the payload is 0. -/
theorem digitFields_errorWord (s : Status) (p : Count) : digitFields (errorWord s p) = zeroDigits := by
  have h : (0 : Payload) = packDigits zeroDigits := by decide
  rw [errorWord, h, digitFields_respond]

/-! ### Command words -/

theorem append_eq_append {n m : Nat} (a b : BitVec n) (x y : BitVec m) : a ++ x = b ++ y ↔ a = b ∧ x = y := by
  constructor
  · intro h
    constructor <;> (apply BitVec.eq_of_getLsbD_eq; intro i hi)
    · simpa [BitVec.getLsbD_append] using congrArg (fun z => z.getLsbD (m + i)) h
    · simpa [BitVec.getLsbD_append, hi] using congrArg (fun z => z.getLsbD i) h
  · rintro ⟨rfl, rfl⟩; rfl

/-- A word is the fields of format E side by side (R65). -/
theorem word_split_formatE (c : Word64) :
    c = (c.extractLsb 63 62 : BitVec 2) ++ (c.extractLsb 61 59 : BitVec 3) ++ (c.extractLsb 58 32 : BitVec 27)
      ++ (c.extractLsb 31 0 : BitVec 32) := by
  apply BitVec.eq_of_getLsbD_eq; intro i hi; simp; grind

/-- A word is the fields of format D side by side, its digits as one payload (R65). -/
theorem word_split_formatD (c : Word64) :
    c = (c.extractLsb 63 62 : BitVec 2) ++ (c.extractLsb 61 59 : BitVec 3) ++ (c.extractLsb 58 35 : BitVec 24)
      ++ (c.extractLsb 34 0 : BitVec 35) := by
  apply BitVec.eq_of_getLsbD_eq; intro i hi; simp; grind

theorem fields_match_enc (a : BitVec 2) (n : BitVec 3) (r : BitVec 27) (v : BitVec 32) :
    (a ++ n ++ r ++ v) &&& encMask = encMatch ↔ a = 0 ∧ r = 0 := by
  have h1 : encMask = (BitVec.allOnes 2 ++ 0#3 ++ BitVec.allOnes 27 ++ 0#32) := by decide
  have h2 : encMatch = (0#2 ++ 0#3 ++ 0#27 ++ 0#32) := by decide
  rw [h1, h2, BitVec.and_append, BitVec.and_append, BitVec.and_append, append_eq_append, append_eq_append,
    append_eq_append]
  simp only [BitVec.and_allOnes, BitVec.and_zero, and_true]
  rfl

theorem fields_match_dec (a : BitVec 2) (n : BitVec 3) (r : BitVec 24) (v : BitVec 35) :
    (a ++ n ++ r ++ v) &&& decMask = decMatch ↔ a = 1 ∧ r = 0 := by
  have h1 : decMask = (BitVec.allOnes 2 ++ 0#3 ++ BitVec.allOnes 24 ++ 0#35) := by decide
  have h2 : decMatch = (1#2 ++ 0#3 ++ 0#24 ++ 0#35) := by decide
  rw [h1, h2, BitVec.and_append, BitVec.and_append, BitVec.and_append, append_eq_append, append_eq_append,
    append_eq_append]
  simp only [BitVec.and_allOnes, BitVec.and_zero, and_true]
  rfl

/-- ENC's match and mask say: op = 00 and [58:32] = 0 (R61, R71). -/
theorem matches_enc_iff (c : Word64) :
    c &&& encMask = encMatch ↔ c.extractLsb 63 62 = 0 ∧ c.extractLsb 58 32 = 0 := by
  conv_lhs => rw [word_split_formatE c]
  exact fields_match_enc _ _ _ _

/-- DEC's match and mask say: op = 01 and [58:35] = 0 (R61, R71). -/
theorem matches_dec_iff (c : Word64) :
    c &&& decMask = decMatch ↔ c.extractLsb 63 62 = 1 ∧ c.extractLsb 58 35 = 0 := by
  conv_lhs => rw [word_split_formatD c]
  exact fields_match_dec _ _ _ _

/-- No word matches both rows (R71). -/
theorem not_matches_both (c : Word64) (h : c &&& decMask = decMatch) : c &&& encMask ≠ encMatch := by
  intro he
  have h1 := ((matches_dec_iff c).1 h).1
  rw [((matches_enc_iff c).1 he).1] at h1
  exact absurd h1 (by decide)

theorem cmdCnt_encode_enc (n : Count) (v : GroupWord) : cmdCnt (encode (.enc n v)) = n := by
  apply BitVec.eq_of_getLsbD_eq; intro i hi; simp [cmdCnt, encode]; grind

theorem cmdDataField_encode_enc (n : Count) (v : GroupWord) : cmdDataField (encode (.enc n v)) = v := by
  apply BitVec.eq_of_getLsbD_eq; intro i hi; simp [cmdDataField, encode]; grind

theorem cmdCnt_encode_dec (k : Count) (d : Digits) : cmdCnt (encode (.dec k d)) = k := by
  apply BitVec.eq_of_getLsbD_eq; intro i hi; simp [cmdCnt, encode]; grind

theorem digitFields_encode_dec (k : Count) (d : Digits) : digitFields (encode (.dec k d)) = d := by
  obtain ⟨d0, d1, d2, d3, d4⟩ := d
  simp only [digitFields, packDigits, encode, Digits.mk.injEq]
  refine ⟨?_, ?_, ?_, ?_, ?_⟩ <;> (apply BitVec.eq_of_getLsbD_eq; intro i hi; simp; grind)

theorem packDigits_digitFields (r : Word64) : packDigits (digitFields r) = rspPayload r := by
  simp only [digitFields, packDigits, rspPayload]
  apply BitVec.eq_of_getLsbD_eq; intro i hi; simp; grind

/-! ### The opcode map -/

theorem decode_of_matches_enc (c : Word64) (h : c &&& encMask = encMatch) :
    decode c = .ok (.enc (cmdCnt c) (cmdDataField c)) := by simp [decode, h]

theorem decode_of_matches_dec (c : Word64) (h : c &&& decMask = decMatch) :
    decode c = .ok (.dec (cmdCnt c) (digitFields c)) := by simp [decode, h, not_matches_both c h]

theorem decode_of_no_match (c : Word64) (h : c &&& encMask ≠ encMatch) (h' : c &&& decMask ≠ decMatch) :
    ∃ e, decode c = .error e := by
  by_cases h2 : 2 ≤ (cmdOp c).toNat
  · exact ⟨.reservedOp, by simp [decode, h, h', h2]⟩
  · exact ⟨.reservedBits, by simp [decode, h, h', h2]⟩

/-- Everything the decoder can answer. -/
theorem decode_cases (c : Word64) :
    (c &&& encMask = encMatch ∧ decode c = .ok (.enc (cmdCnt c) (cmdDataField c)))
      ∨ (c &&& decMask = decMatch ∧ decode c = .ok (.dec (cmdCnt c) (digitFields c)))
      ∨ (c &&& encMask ≠ encMatch ∧ c &&& decMask ≠ decMatch ∧ ∃ e, decode c = .error e) := by
  by_cases h : c &&& encMask = encMatch
  · exact .inl ⟨h, decode_of_matches_enc c h⟩
  · by_cases h' : c &&& decMask = decMatch
    · exact .inr (.inl ⟨h', decode_of_matches_dec c h'⟩)
    · exact .inr (.inr ⟨h, h', decode_of_no_match c h h'⟩)

end Sys2Proof
end

