-- ==== Sys2Proof/Laws/Cycle.lean ====
section
/-! SUPPORT. What the check, a command, an edge and a step can do, said once. -/

namespace Sys2Proof.Machine

/-! ### The check -/

theorem op_zero_or_one (x : BitVec 1) : x = 0 ∨ x = 1 := by revert x; decide

theorem encCheck_ok_iff (n : Count) : (encCheck n).1 = .ok ↔ 1 ≤ n.toNat ∧ n.toNat ≤ 4 := by
  unfold encCheck; split <;> simp_all

theorem encCheck_of_bad (n : Count) (h : ¬ (1 ≤ n.toNat ∧ n.toNat ≤ 4)) : encCheck n = (.illegalCmd, 0) := by
  simp only [encCheck, if_neg h]

theorem invalidAt_iff (k : Count) (d : Digits) (i : Fin 5) :
    invalidAt k d i = true ↔ i.val < k.toNat ∧ 84 < (d.get i).toNat := by
  rw [invalidAt, Bool.and_eq_true, decide_eq_true_iff, decide_eq_true_iff]
  rfl

theorem mem_places (i : Fin 5) : i ∈ places := by fin_cases i <;> decide

theorem places_ascending : places.Pairwise (· < ·) := by decide

/-- No place below k is invalid, when `firstInvalid` finds none (R96). -/
theorem firstInvalid_none_iff (k : Count) (d : Digits) :
    firstInvalid k d = none ↔ ∀ i : Fin 5, i.val < k.toNat → (d.get i).toNat ≤ 84 := by
  rw [firstInvalid, List.find?_eq_none]
  refine ⟨fun h i hi => ?_, fun h i _ hi => ?_⟩
  · have := h i (mem_places i)
    rw [invalidAt_iff] at this
    omega
  · obtain ⟨h1, h2⟩ := (invalidAt_iff k d i).1 hi
    have := h i h1
    omega

/-- What `firstInvalid` finds is invalid, and no lower place is (R96, R115). -/
theorem firstInvalid_some (k : Count) (d : Digits) (i : Fin 5) (h : firstInvalid k d = some i) :
    invalidAt k d i = true ∧ ∀ j : Fin 5, j < i → invalidAt k d j ≠ true := by
  obtain ⟨hp, as, bs, hl, hn⟩ := List.find?_eq_some_iff_append.1 h
  refine ⟨hp, fun j hj hb => ?_⟩
  have hs : (as ++ i :: bs).Pairwise (· < ·) := hl ▸ places_ascending
  have hm : j ∈ as ++ i :: bs := hl ▸ mem_places j
  rcases List.mem_append.1 hm with h1 | h1
  · have := hn j h1
    rw [hb] at this
    exact absurd this (by decide)
  · rcases List.mem_cons.1 h1 with h2 | h2
    · exact absurd h2 (ne_of_lt hj)
    · exact absurd ((List.pairwise_cons.1 (List.pairwise_append.1 hs).2.1).1 j h2) (not_lt.2 hj.le)

/-- `firstInvalid` finds exactly the least invalid place below k (R96, R115). -/
theorem firstInvalid_some_iff (k : Count) (d : Digits) (i : Fin 5) :
    firstInvalid k d = some i ↔
      i.val < k.toNat ∧ 84 < (d.get i).toNat ∧ ∀ j : Fin 5, j < i → (d.get j).toNat ≤ 84 := by
  constructor
  · intro h
    obtain ⟨hi, hlow⟩ := firstInvalid_some k d i h
    obtain ⟨h1, h2⟩ := (invalidAt_iff k d i).1 hi
    refine ⟨h1, h2, fun j hj => not_lt.1 fun hc => hlow j hj ((invalidAt_iff k d j).2 ⟨lt_trans hj h1, hc⟩)⟩
  · rintro ⟨hk, hi, hlow⟩
    have hb : invalidAt k d i = true := (invalidAt_iff k d i).2 ⟨hk, hi⟩
    cases hf : firstInvalid k d with
    | none => exact absurd ((firstInvalid_none_iff k d).1 hf i hk) (not_le.2 hi)
    | some i' =>
      obtain ⟨hi', hlow'⟩ := firstInvalid_some k d i' hf
      rcases lt_trichotomy i' i with h1 | h1 | h1
      · exact absurd ((invalidAt_iff k d i').1 hi').2 (not_lt.2 (hlow i' h1))
      · rw [h1]
      · exact absurd hb (hlow' i h1)

theorem decCheck_of_bad (k : Count) (d : Digits) (h : ¬ (1 ≤ k.toNat ∧ k.toNat ≤ 5)) :
    decCheck k d = (.illegalCmd, 0) := by
  simp only [decCheck, if_neg h]

theorem decCheck_of_invalid (k : Count) (d : Digits) (i : Fin 5) (h : 1 ≤ k.toNat ∧ k.toNat ≤ 5)
    (hi : firstInvalid k d = some i) : decCheck k d = (.invalidDigit, BitVec.ofNat 3 i.val) := by
  simp only [decCheck, if_pos h, hi]

theorem decCheck_of_valid (k : Count) (d : Digits) (h : 1 ≤ k.toNat ∧ k.toNat ≤ 5) (hi : firstInvalid k d = none) :
    decCheck k d = if k = 1 then (.truncated, 0) else (.ok, 0) := by
  simp only [decCheck, if_pos h, hi]

theorem count_eq_one_iff (k : Count) : k = 1 ↔ k.toNat = 1 := by
  constructor
  · rintro rfl; rfl
  · intro h; exact BitVec.eq_of_toNat_eq h

theorem decCheck_ok_iff (k : Count) (d : Digits) :
    (decCheck k d).1 = .ok ↔
      2 ≤ k.toNat ∧ k.toNat ≤ 5 ∧ ∀ i : Fin 5, i.val < k.toNat → (d.get i).toNat ≤ 84 := by
  by_cases h : 1 ≤ k.toNat ∧ k.toNat ≤ 5
  · cases hf : firstInvalid k d with
    | some i =>
      obtain ⟨h1, h2, _⟩ := (firstInvalid_some_iff k d i).1 hf
      rw [decCheck_of_invalid k d i h hf]
      constructor
      · intro h3; cases h3
      · rintro ⟨_, _, h3⟩; exact absurd (h3 i h1) (not_le.2 h2)
    | none =>
      have hv := (firstInvalid_none_iff k d).1 hf
      rw [decCheck_of_valid k d h hf]
      by_cases h1 : k = 1
      · have := (count_eq_one_iff k).1 h1
        rw [if_pos h1]
        constructor
        · intro h3; cases h3
        · rintro ⟨h2, _⟩; omega
      · have : k.toNat ≠ 1 := fun h3 => h1 ((count_eq_one_iff k).2 h3)
        rw [if_neg h1]
        exact ⟨fun _ => ⟨by omega, h.2, hv⟩, fun _ => rfl⟩
  · rw [decCheck_of_bad k d h]
    constructor
    · intro h3; cases h3
    · rintro ⟨h1, h2, _⟩; exact absurd ⟨by omega, h2⟩ h

/-! ### A command at its accepting edge -/

/-- ENC_INIT or DEC_INIT. -/
def start (i : Instr) (s : State) : State :=
  match i with
  | .enc n v => encInit n v s
  | .dec k d => decInit k d s

theorem exec_of_ok (i : Instr) (s : State) (h : (checkInstr i).1 = .ok) : exec i s = .next (start i s) := by
  cases i with
  | enc n v =>
    rcases hx : encCheck n with ⟨st, p⟩
    cases st <;> simp_all [checkInstr, exec, execEnc, start]
  | dec k d =>
    rcases hx : decCheck k d with ⟨st, p⟩
    cases st <;> simp_all [checkInstr, exec, execDec, start]

theorem exec_of_error (i : Instr) (s : State) (h : (checkInstr i).1 ≠ .ok) :
    exec i s = .next (answerError (checkInstr i).1 (checkInstr i).2 s) := by
  cases i with
  | enc n v =>
    rcases hx : encCheck n with ⟨st, p⟩
    cases st <;> simp_all [checkInstr, exec, execEnc]
  | dec k d =>
    rcases hx : decCheck k d with ⟨st, p⟩
    cases st <;> simp_all [checkInstr, exec, execDec]

theorem check_of_decode (c : Word64) (i : Instr) (h : decode c = .ok i) : check c = checkInstr i := by
  simp [check, h]

theorem check_ok_decodes (c : Word64) (h : (check c).1 = .ok) : ∃ i, decode c = .ok i ∧ (checkInstr i).1 = .ok := by
  cases hd : decode c with
  | ok i => exact ⟨i, rfl, by rwa [check_of_decode c i hd] at h⟩
  | error e => simp [check, hd] at h

theorem accept_of_error (c : Word64) (s : State) (h : (check c).1 ≠ .ok) :
    accept c s = .next (answerError (check c).1 (check c).2 s) := by
  cases hd : decode c with
  | ok i =>
    rw [check_of_decode c i hd] at h ⊢
    simp only [accept, hd]
    exact exec_of_error i s h
  | error e => simp [accept, check, hd]

theorem accept_of_ok (c : Word64) (s : State) (i : Instr) (hd : decode c = .ok i) (h : (checkInstr i).1 = .ok) :
    accept c s = .next (start i s) := by
  simp only [accept, hd]
  exact exec_of_ok i s h

theorem result_of_error (c : Word64) (h : (check c).1 ≠ .ok) : result c = errorWord (check c).1 (check c).2 := by
  cases hd : decode c with
  | ok i =>
    rw [check_of_decode c i hd] at h ⊢
    rcases hx : checkInstr i with ⟨st, p⟩
    cases st <;> simp_all [result, resultInstr]
  | error e => simp [result, check, hd]

theorem result_of_ok (c : Word64) (i : Instr) (hd : decode c = .ok i) (h : (checkInstr i).1 = .ok) :
    result c = computed i := by
  rcases hx : checkInstr i with ⟨st, p⟩
  cases st <;> simp_all [result, resultInstr]

/-! ### An edge, phase by phase -/

theorem edge_reset (p : Pins) (s : State) (h : p.rst = true) : edge p s = .next (applyReset s) := by
  simp [edge, h]

theorem edge_idle_quiet (p : Pins) (s : State) (h : p.rst = false) (hs : s.phase = .idle) (hv : p.cmdValid = false) :
    edge p s = .next s := by simp [edge, h, hs, hv]

theorem edge_idle_command (p : Pins) (s : State) (h : p.rst = false) (hs : s.phase = .idle) (hv : p.cmdValid = true) :
    edge p s = accept p.cmdData s := by simp [edge, h, hs, hv]

theorem edge_busy (p : Pins) (s : State) (h : p.rst = false) (hs : s.phase = .busy) : edge p s = busyEdge s := by
  simp [edge, h, hs]

theorem edge_done_held (p : Pins) (s : State) (h : p.rst = false) (hs : s.phase = .done) (hr : p.rspReady = false) :
    edge p s = .next s := by simp [edge, h, hs, hr]

theorem edge_done_taken (p : Pins) (s : State) (h : p.rst = false) (hs : s.phase = .done) (hr : p.rspReady = true) :
    edge p s = .next (takeResponse s) := by simp [edge, h, hs, hr]

theorem stepPlace_eq_some_iff (x : BitVec 3) (i : Fin 5) : stepPlace x = some i ↔ x.toNat = i.val := by
  unfold stepPlace
  split
  · constructor
    · intro h; cases h; rfl
    · intro h; exact congrArg some (Fin.ext h)
  · constructor
    · intro h; cases h
    · intro h; have := i.isLt; omega

theorem busyEdge_enc (s : State) (i : Fin 5) (ho : s.op = 0) (hi : s.step.toNat = i.val) :
    busyEdge s =
      if i = 4 then finish (countStep (encStep i s)) else .next (countStep (encStep i s)) := by
  simp [busyEdge, (stepPlace_eq_some_iff s.step i).2 hi, microStep, ho]

theorem busyEdge_dec (s : State) (i : Fin 5) (ho : s.op = 1) (hi : s.step.toNat = i.val)
    (hv : hornerValue i s < 2 ^ 33) :
    busyEdge s =
      if i = 4 then finish (countStep (accumulate i s))
      else .next (countStep (accumulate i s)) := by
  have h0 : ¬ ((1 : BitVec 1) = 0) := by decide
  simp only [busyEdge, (stepPlace_eq_some_iff s.step i).2 hi, microStep, ho, if_neg h0, decStep, if_pos hv]

theorem finish_enc (s : State) (ho : s.op = 0) (hc : 1 ≤ s.cnt.toNat ∧ s.cnt.toNat ≤ 4) :
    finish s = .next (encFinish s) := by
  simp [finish, cntFits, ho, hc.1, hc.2]

theorem finish_dec (s : State) (ho : s.op = 1) (hc : 2 ≤ s.cnt.toNat ∧ s.cnt.toNat ≤ 5) :
    finish s = .next (decFinish s) := by
  simp [finish, cntFits, ho, hc.1, hc.2]

/-! ### Everything an edge can do -/

/-- What an edge that answers a next state did. -/
inductive EdgeEffect (p : Pins) (s : State) : State → Prop where
  | reset (h : p.rst = true) : EdgeEffect p s (applyReset s)
  | idle (h : p.rst = false) (hs : s.phase = .idle) (hv : p.cmdValid = false) : EdgeEffect p s s
  | answered (h : p.rst = false) (hs : s.phase = .idle) (hv : p.cmdValid = true) (hc : (check p.cmdData).1 ≠ .ok) :
      EdgeEffect p s (answerError (check p.cmdData).1 (check p.cmdData).2 s)
  | started (i : Instr) (h : p.rst = false) (hs : s.phase = .idle) (hv : p.cmdValid = true)
      (hd : decode p.cmdData = .ok i) (hc : (checkInstr i).1 = .ok) : EdgeEffect p s (start i s)
  | encStepped (i : Fin 5) (h : p.rst = false) (hs : s.phase = .busy) (ho : s.op = 0) (hi : s.step.toNat = i.val)
      (h4 : i ≠ 4) : EdgeEffect p s (countStep (encStep i s))
  | encFinished (h : p.rst = false) (hs : s.phase = .busy) (ho : s.op = 0) (hi : s.step.toNat = 4)
      (hc : 1 ≤ s.cnt.toNat ∧ s.cnt.toNat ≤ 4) : EdgeEffect p s (encFinish (countStep (encStep 4 s)))
  | decStepped (i : Fin 5) (h : p.rst = false) (hs : s.phase = .busy) (ho : s.op = 1) (hi : s.step.toNat = i.val)
      (h4 : i ≠ 4) (hv : hornerValue i s < 2 ^ 33) :
      EdgeEffect p s (countStep (accumulate i s))
  | decFinished (h : p.rst = false) (hs : s.phase = .busy) (ho : s.op = 1) (hi : s.step.toNat = 4)
      (hc : 2 ≤ s.cnt.toNat ∧ s.cnt.toNat ≤ 5) (hv : hornerValue 4 s < 2 ^ 33) :
      EdgeEffect p s (decFinish (countStep (accumulate 4 s)))
  | held (h : p.rst = false) (hs : s.phase = .done) (hr : p.rspReady = false) : EdgeEffect p s s
  | taken (h : p.rst = false) (hs : s.phase = .done) (hr : p.rspReady = true) : EdgeEffect p s (takeResponse s)

theorem finish_next (s t : State) (h : finish s = .next t) :
    (s.op = 0 ∧ 1 ≤ s.cnt.toNat ∧ s.cnt.toNat ≤ 4 ∧ t = encFinish s)
      ∨ (s.op = 1 ∧ 2 ≤ s.cnt.toNat ∧ s.cnt.toNat ≤ 5 ∧ t = decFinish s) := by
  unfold finish at h
  split at h
  · rename_i hc
    rcases op_zero_or_one s.op with ho | ho
    · left
      simp only [cntFits, ho, if_true, Bool.and_eq_true, decide_eq_true_eq] at hc h
      cases h
      exact ⟨ho, hc.1, hc.2, rfl⟩
    · right
      simp [cntFits, ho] at hc h
      exact ⟨ho, hc.1, hc.2, h.symm⟩
  · cases h

theorem busyEdge_effect (p : Pins) (s t : State) (hr : p.rst = false) (hs : s.phase = .busy)
    (h : busyEdge s = .next t) : EdgeEffect p s t := by
  unfold busyEdge at h
  split at h
  · cases h
  · rename_i i hi
    rw [stepPlace_eq_some_iff] at hi
    rcases op_zero_or_one s.op with ho | ho
    · simp only [microStep, ho, if_true] at h
      split at h
      · rename_i h4
        subst h4
        rcases finish_next _ _ h with ⟨_, h1, h2, rfl⟩ | ⟨h1, _⟩
        · exact .encFinished hr hs ho hi ⟨h1, h2⟩
        · rw [countStep_op, encStep_op, ho] at h1; exact absurd h1 (by decide)
      · rename_i h4
        cases h
        exact .encStepped i hr hs ho hi h4
    · by_cases hv : hornerValue i s < 2 ^ 33
      · have h0 : ¬ ((1 : BitVec 1) = 0) := by decide
        simp only [microStep, ho, if_neg h0, decStep, if_pos hv] at h
        split at h
        · rename_i h4
          subst h4
          rcases finish_next _ _ h with ⟨h1, _⟩ | ⟨_, h1, h2, rfl⟩
          · rw [countStep_op, accumulate_op, ho] at h1; exact absurd h1 (by decide)
          · exact .decFinished hr hs ho hi ⟨h1, h2⟩ hv
        · rename_i h4
          cases h
          exact .decStepped i hr hs ho hi h4 hv
      · have h0 : ¬ ((1 : BitVec 1) = 0) := by decide
        simp only [microStep, ho, if_neg h0, decStep, if_neg hv] at h
        cases h

/-- An edge that answers a next state did one of these things. -/
theorem edge_effect (p : Pins) (s t : State) (h : edge p s = .next t) : EdgeEffect p s t := by
  cases hr : p.rst with
  | true => rw [edge_reset p s hr] at h; cases h; exact .reset hr
  | false =>
    cases hs : s.phase with
    | idle =>
      cases hv : p.cmdValid with
      | false => rw [edge_idle_quiet p s hr hs hv] at h; cases h; exact .idle hr hs hv
      | true =>
        rw [edge_idle_command p s hr hs hv] at h
        by_cases hc : (check p.cmdData).1 = .ok
        · obtain ⟨i, hd, hi⟩ := check_ok_decodes _ hc
          rw [accept_of_ok _ s i hd hi] at h; cases h; exact .started i hr hs hv hd hi
        · rw [accept_of_error _ s hc] at h; cases h; exact .answered hr hs hv hc
    | busy => rw [edge_busy p s hr hs] at h; exact busyEdge_effect p s t hr hs h
    | done =>
      cases hq : p.rspReady with
      | false => rw [edge_done_held p s hr hs hq] at h; cases h; exact .held hr hs hq
      | true => rw [edge_done_taken p s hr hs hq] at h; cases h; exact .taken hr hs hq

/-! ### Runs over edges -/

@[simp] theorem runEdges_nil (s : State) : runEdges [] s = .next s := rfl

theorem runEdges_cons_next (p : Pins) (ps : List Pins) (s t : State) (h : edge p s = .next t) :
    runEdges (p :: ps) s = runEdges ps t := by simp [runEdges, h]

theorem accepted_cons_next (p : Pins) (ps : List Pins) (s t : State) (h : edge p s = .next t) :
    accepted (p :: ps) s = (if cmdTransfers p s then [p.cmdData] else []) ++ accepted ps t := by
  simp [accepted, h]

theorem responses_cons_next (p : Pins) (ps : List Pins) (s t : State) (h : edge p s = .next t) :
    responses (p :: ps) s = (if rspTransfers p s then [rspData s] else []) ++ responses ps t := by
  simp [responses, h]

theorem unanswered_cons_next (owed : List Word64) (p : Pins) (ps : List Pins) (s t : State) (h : edge p s = .next t) :
    unanswered owed (p :: ps) s =
      unanswered
        (if p.rst then []
          else (if rspTransfers p s then owed.drop 1 else owed) ++ (if cmdTransfers p s then [p.cmdData] else []))
        ps t := by
  rw [unanswered]; simp only [h]

@[simp] theorem offerStands_single (p : Pins) (s : State) : offerStands [p] s = (p.cmdValid && !cmdTransfers p s) := rfl

theorem offerStands_cons_next (p q : Pins) (ps : List Pins) (s t : State) (h : edge p s = .next t) :
    offerStands (p :: q :: ps) s = offerStands (q :: ps) t := by simp [offerStands, h]

theorem cmdTransfers_iff (p : Pins) (s : State) :
    cmdTransfers p s = true ↔ p.rst = false ∧ p.cmdValid = true ∧ s.phase = .idle := by
  simp [cmdTransfers, cmdReady]; tauto

theorem rspTransfers_iff (p : Pins) (s : State) :
    rspTransfers p s = true ↔ p.rst = false ∧ p.rspReady = true ∧ s.phase = .done := by
  simp [rspTransfers, rspValid]; tauto

end Sys2Proof.Machine
end

