-- ==== Sys2Proof/Laws/Digits.lean ====
section
/-! SUPPORT. Words, masks and digit vectors as natural numbers. -/

namespace Sys2Proof
open Machine

/-- Two words side by side, as a number. -/
theorem toNat_append_words {n m : Nat} (a : BitVec n) (b : BitVec m) : (a ++ b).toNat = a.toNat * 2 ^ m + b.toNat := by
  rw [BitVec.toNat_append, Nat.shiftLeft_eq, mul_comm, Nat.two_pow_add_eq_or_of_lt b.isLt]

namespace Machine

/-! ### Masks (R12) -/

theorem byteMask_four : byteMask 4 = BitVec.allOnes 32 := by decide

/-- A mask keeps the bits of the first n bytes. -/
theorem byteMask_getLsbD (n i : Nat) (h1 : 1 ≤ n) (h4 : n ≤ 4) (hi : i < 32) :
    (byteMask n).getLsbD i = decide (32 - 8 * n ≤ i) := by
  interval_cases n <;> (revert i; decide)

/-- Masking the bytes after the first n makes the number a multiple of 256^(4−n). -/
theorem masked_toNat (x : GroupWord) (n : Nat) (h1 : 1 ≤ n) (h3 : n ≤ 3) :
    (x &&& byteMask n).toNat = x.toNat / 2 ^ (32 - 8 * n) * 2 ^ (32 - 8 * n) := by
  have hs : x &&& byteMask n = (x >>> (32 - 8 * n)) <<< (32 - 8 * n) := by
    apply BitVec.eq_of_getLsbD_eq
    intro i hi
    rw [BitVec.getLsbD_and, byteMask_getLsbD n i h1 (by omega) hi, BitVec.getLsbD_shiftLeft, BitVec.getLsbD_ushiftRight]
    by_cases h : 32 - 8 * n ≤ i
    · rw [show 32 - 8 * n + (i - (32 - 8 * n)) = i by omega]; simp [hi, h]
    · simp [h]
  rw [hs, BitVec.toNat_shiftLeft, BitVec.toNat_ushiftRight, Nat.shiftLeft_eq, Nat.shiftRight_eq_div_pow, Nat.mod_eq_of_lt]
  have := x.isLt
  have := Nat.div_mul_le_self x.toNat (2 ^ (32 - 8 * n))
  omega

/-! ### Digits (R10, R84) -/

theorem digitOf_toNat (v : Nat) (i : Fin 5) : (digitOf v i).toNat = v / 85 ^ (4 - i.val) % 85 := by
  rw [digitOf, BitVec.toNat_ofNat, Config.radix]
  have := Nat.mod_lt (v / 85 ^ (4 - i.val)) (show 85 > 0 by decide)
  omega

@[simp] theorem digitsOf_get (v : Nat) (i : Fin 5) : (digitsOf v).get i = digitOf v i := by
  rw [digitsOf, Digits.get_ofFn]

theorem digitsOf_get_le (v : Nat) (i : Fin 5) : ((digitsOf v).get i).toNat ≤ 84 := by
  rw [digitsOf_get, digitOf_toNat]
  have := Nat.mod_lt (v / 85 ^ (4 - i.val)) (show 85 > 0 by decide)
  omega

/-- A five-digit vector of digits at most 84 has a value below 85^5. -/
theorem val_lt (d : Digits) (h : ∀ i, (d.get i).toNat ≤ 84) : d.val < 85 ^ 5 := by
  rw [Digits.val_eq_sum]
  simp only [Fin.sum_univ_five]
  have h0 := h 0; have h1 := h 1; have h2 := h 2; have h3 := h 3; have h4 := h 4
  norm_num
  omega

/-- A response count: n + 1 units for n of 1..4 (R68). -/
theorem count_succ_toNat (n : Count) (h : n.toNat ≤ 6) : (n + 1).toNat = n.toNat + 1 := by
  rw [BitVec.toNat_add]
  have : BitVec.toNat (1 : Count) = 1 := rfl
  omega

/-- A response count: k − 1 units (R68). -/
theorem count_pred_toNat (k : Count) (h : 1 ≤ k.toNat) : (k - 1).toNat = k.toNat - 1 := by
  rw [BitVec.toNat_sub]
  have : BitVec.toNat (1 : Count) = 1 := rfl
  have := k.isLt
  omega

end Machine
end Sys2Proof
end

