-- ==== Sys2Proof/Laws/PerInstr.lean ====
section
/-! SUPPORT. Per-command lemmas: the word of a command matches its row of the opcode table (R71). -/

namespace Sys2Proof.Laws

/-- The command's word matches its own row's match and mask, and no other row's. -/
def MatchesOwnRow.Statement (i : Instr) : Prop :=
  match i with
  | .enc n v => encode (.enc n v) &&& encMask = encMatch ∧ encode (.enc n v) &&& decMask ≠ decMatch
  | .dec k d => encode (.dec k d) &&& decMask = decMatch ∧ encode (.dec k d) &&& encMask ≠ encMatch

theorem MatchesOwnRow.enc (n : Count) (v : GroupWord) : MatchesOwnRow.Statement (.enc n v) := by
  have h : encode (.enc n v) &&& encMask = encMatch := (fields_match_enc 0#2 n 0#27 v).2 ⟨rfl, rfl⟩
  exact ⟨h, fun h' => not_matches_both _ h' h⟩

theorem MatchesOwnRow.dec (k : Count) (d : Digits) : MatchesOwnRow.Statement (.dec k d) := by
  have h : encode (.dec k d) &&& decMask = decMatch := (fields_match_dec 1#2 k 0#24 (packDigits d)).2 ⟨rfl, rfl⟩
  exact ⟨h, not_matches_both _ h⟩

end Sys2Proof.Laws
end

