-- ==== Sys2Proof/Tests/Slice0.lean ====
section
/-! SUPPORT. Small tests, their expected values from the spec's worked examples and encodings, and for every statement of
Obligations.lean that has hypotheses a witness that meets them. -/

namespace Sys2Proof.Tests
open Sys2Proof.Machine

/-! ### Small states and pins -/

def quietPins : Pins := { rst := false, cmdValid := false, cmdData := 0, rspReady := false }
def takePins : Pins := { rst := false, cmdValid := false, cmdData := 0, rspReady := true }
def resetPins : Pins := { rst := true, cmdValid := true, cmdData := 0x200000004D616E20, rspReady := true }
def fiveDigits (a b c d e : Digit) : Digits := { d0 := a, d1 := b, d2 := c, d3 := d, d4 := e }

/-- IDLE with leftovers in every hidden register, as after an earlier command (R35). -/
def usedIdle : State :=
  { State.reset with op := 1, cnt := 5, step := 5, q := 7, acc := 9, dig := fiveDigits 1 2 3 4 5, rsp := 0x6000000000000000 }

/-- `ENC 4, 0x4D616E20` before its fifth micro-step (R92: Q = 24 after STEP 3). -/
def encLast : State :=
  { State.reset with phase := .busy, cnt := 4, step := 4, q := 24, dig := fiveDigits 0 73 80 78 61 }

/-- `DEC 2, 81, 81` before its fifth micro-step (R112: ACC = 50,336,574 after STEP 3). -/
def decLast : State :=
  { State.reset with phase := .busy, op := 1, cnt := 2, step := 4, acc := 50336574, dig := fiveDigits 81 81 84 84 84 }

/-- A response waiting in DONE. -/
def waiting : State := { usedIdle with phase := .done }

/-- The state one step leads to. -/
def stepped (s : State) : State :=
  match step s with
  | .next t => t
  | .fault _ => s
  | .refused _ => s

/-- The state one edge leads to. -/
def edged (p : Pins) (s : State) : State :=
  match edge p s with
  | .next t => t
  | .fault _ => s
  | .refused _ => s

/-! ### WellFormed: what it refuses (R79, R95), and the boundary counts it keeps -/

theorem test_wellFormed_refuses_enc_0 : ¬ (Instr.enc 0 0x4D616E20).WellFormed := by decide
theorem test_wellFormed_refuses_enc_5 : ¬ (Instr.enc 5 0x4D616E20).WellFormed := by decide
theorem test_wellFormed_refuses_dec_0 : ¬ (Instr.dec 0 (fiveDigits 0 0 0 0 0)).WellFormed := by decide
theorem test_wellFormed_refuses_dec_6 : ¬ (Instr.dec 6 (fiveDigits 0 0 0 0 0)).WellFormed := by decide
theorem test_wellFormed_keeps_bounds :
    (Instr.enc 1 0).WellFormed ∧ (Instr.enc 4 0).WellFormed ∧ (Instr.dec 1 (fiveDigits 0 0 0 0 0)).WellFormed
      ∧ (Instr.dec 5 (fiveDigits 127 0 0 0 0)).WellFormed := by decide

/-! ### Decoding, the words written bit by bit from R65's formats and R71's patterns -/

/-- Format E: `00`, n = 2 `010`, 27 zeros, v = 0xC0A80001. -/
theorem test_decode_enc_bits :
    decode 0b0001000000000000000000000000000011000000101010000000000000000001 = .ok (.enc 2 0xC0A80001) := by decide

/-- Format D: `01`, k = 3 `011`, 24 zeros, digits 1, 2, 84, 127, 85. -/
theorem test_decode_dec_bits :
    decode 0b0101100000000000000000000000000000010000010101010011111111010101 = .ok (.dec 3 (fiveDigits 1 2 84 127 85)) := by
  decide

/-- Bit 35 is a digit bit of no format: reserved for ENC and DEC alike (R61); bit 34 is reserved for ENC only. -/
theorem test_decode_reserved_bits :
    decode 0x2000000800000000 = .error .reservedBits ∧ decode 0x6800000800000000 = .error .reservedBits
      ∧ decode 0x2000000400000000 = .error .reservedBits ∧ decode 0x6800000400000000 = .ok (.dec 5 (fiveDigits 64 0 0 0 0))
      ∧ decode 0xC000000000000000 = .error .reservedOp := by decide

theorem test_decodeTableWord :
    decodeTableWord 64 0x200000004D616E20 = some (.enc 4 0x4D616E20) ∧ decodeTableWord 64 0x8000000000000000 = none := by
  decide

/-! ### One step each, from the tables of R92 and R112 -/

/-- ENC at its accepting edge (R81). -/
theorem test_enc_accepts :
    (stepped (usedIdle.withFetchWord 64 0x200000004D616E20)).q = 0x4D616E20
      ∧ (stepped (usedIdle.withFetchWord 64 0x200000004D616E20)).phase = .busy
      ∧ (stepped (usedIdle.withFetchWord 64 0x200000004D616E20)).acc = 9 := by decide

/-- ENC at its fifth micro-step (R83, R92). -/
theorem test_enc_finishes :
    (edged quietPins encLast).rsp = 0x140000018934273D ∧ (edged quietPins encLast).phase = .done
      ∧ (edged quietPins encLast).q = 0 := by decide

/-- DEC at its accepting edge: 84 in the missing places (R98, R112). -/
theorem test_dec_accepts :
    (stepped (usedIdle.withFetchWord 64 0x500000051A200000)).dig = fiveDigits 81 81 84 84 84
      ∧ (stepped (usedIdle.withFetchWord 64 0x500000051A200000)).acc = 0
      ∧ (stepped (usedIdle.withFetchWord 64 0x500000051A200000)).q = 7 := by decide

/-- DEC at its fifth micro-step (R101, R112). -/
theorem test_dec_finishes :
    (edged quietPins decLast).acc = 4278608874 ∧ (edged quietPins decLast).rsp = 0x04000000FF000000 := by decide

/-! ### Response words of R77, R89 and R109 -/

theorem test_masks : byteMask 1 = 0xFF000000 ∧ byteMask 2 = 0xFFFF0000 ∧ byteMask 3 = 0xFFFFFF00 ∧ byteMask 4 = 0xFFFFFFFF := by
  decide

theorem test_enc_words :
    result 0x200000004D616E20 = 0x140000018934273D ∧ result 0x08000000FF000000 = 0x080000051A200000
      ∧ result 0x0000000000000000 = 0x8000000000000000
      ∧ result (encode (.enc 4 0xFFFFFFFF)) = encWord 4 (fiveDigits 82 23 54 12 0) := by decide

theorem test_dec_words :
    result 0x680000018934273D = 0x100000004D616E20 ∧ result 0x4800000000000000 = 0x4000000000000000
      ∧ result 0x6800000550000000 = 0x2000000000000000 ∧ result 0x6800000522ED8601 = 0x6000000000000000 := by decide

theorem test_overflow_boundary :
    result (encode (.dec 5 (fiveDigits 82 23 54 12 0))) = 0x10000000FFFFFFFF
      ∧ result (encode (.dec 5 (fiveDigits 83 0 0 0 0))) = 0x6000000000000000
      ∧ result (encode (.dec 2 (fiveDigits 82 84 0 0 0))) = 0x6000000000000000
      ∧ result (encode (.dec 2 (fiveDigits 84 0 0 0 0))) = 0x6000000000000000
      ∧ result (encode (.dec 2 (fiveDigits 82 0 0 0 0))) = 0x04000000FF000000 := by decide

/-! ### The assembler's examples (R75, R76) -/

theorem test_assemble_enc :
    assembleText ['E', 'N', 'C', ' ', '4', ',', ' ', '0', 'x', '4', 'D', '6', '1', '6', 'E', '2', '0']
      = some 0x200000004D616E20 := by decide

theorem test_assemble_dec_short :
    assembleText ['D', 'E', 'C', ' ', '2', ',', ' ', '8', '1', ',', ' ', '8', '1'] = some 0x500000051A200000 := by decide

theorem test_assemble_refuses :
    assemble (.enc 8 0) = none ∧ assemble (.enc 4 0x100000000) = none ∧ assemble (.dec 5 [128, 0, 0, 0, 0]) = none
      ∧ assemble (.dec 7 [127, 0, 0, 0, 0]) ≠ none := by decide

/-! ### Witnesses: the hypotheses of each statement are met -/

theorem witness_ResetSetsEveryRegister : (pinsNow { encLast with host := [resetPins] }).rst = true := by decide

theorem witness_ResetDropsCommandInFlight : resetPins.rst = true := by decide

theorem witness_HeldResetIsOneReset :
    resetPins.rst = true ∧ { quietPins with rst := true }.rst = true
      ∧ ∀ p ∈ [resetPins, { quietPins with rst := true }], p.rst = true := by decide

theorem witness_CommandReadyExactlyInIdle :
    resetPins.rst = true ∧ (offerPins 0).rst = false ∧ (offerPins 0).cmdValid = true := by decide

theorem witness_ResponseValidAndHeldInDone :
    waiting.phase = .done ∧ quietPins.rst = false ∧ rspTransfers quietPins waiting = false
      ∧ takePins.rst = false ∧ rspTransfers takePins waiting = true := by decide

/-- Second clause, then the third: BUSY, another word offered; then the last: IDLE and nothing offered. -/
theorem witness_CommandSampledOnlyAtTransfer :
    cmdTransfers (offerPins 5) usedIdle = true
      ∧ (offerPins 5).rst = quietPins.rst ∧ (offerPins 5).rspReady = quietPins.rspReady
      ∧ cmdTransfers quietPins encLast = false ∧ cmdTransfers (offerPins 5) encLast = false
      ∧ usedIdle.phase = .idle ∧ quietPins.rst = false ∧ quietPins.cmdValid = false := by decide

theorem witness_ResponseTakenOnlyAtTransfer :
    rspTransfers takePins waiting = true
      ∧ takePins.rst = quietPins.rst ∧ takePins.cmdValid = quietPins.cmdValid ∧ takePins.cmdData = quietPins.cmdData
      ∧ rspTransfers quietPins encLast = false ∧ rspTransfers takePins encLast = false := by decide

theorem witness_NoCommandAtAResponseEdge :
    rspTransfers takePins waiting = true ∧ (offerPins 0).rst = false ∧ (offerPins 0).cmdValid = true := by decide

theorem witness_UntakenResponseWaitsForEver :
    waiting.phase = .done ∧ (∀ p ∈ [quietPins, offerPins 5], p.rst = false ∧ p.rspReady = false)
      ∧ takePins.rspReady = true ∧ resetPins.rst = true := by decide

theorem witness_StepIsOneEdge :
    { usedIdle with host := [takePins, quietPins] }.host = takePins :: [quietPins] ∧ usedIdle.host = [] := by decide

theorem witness_StepRunsDecodedCommand :
    (offerCommand 0x200000004D616E20 usedIdle).phase = .idle
      ∧ (pinsNow (offerCommand 0x200000004D616E20 usedIdle)).rst = false
      ∧ (pinsNow (offerCommand 0x200000004D616E20 usedIdle)).cmdValid = true
      ∧ decode (pinsNow (offerCommand 0x200000004D616E20 usedIdle)).cmdData = .ok (.enc 4 0x4D616E20)
      ∧ decodeTableWord 64 0x500000051A200000 = some (.dec 2 (fiveDigits 81 81 0 0 0)) := by decide

theorem witness_CoreRunIsTheEdges :
    { usedIdle with host := [takePins, quietPins] }.host = [takePins] ++ [quietPins] := by decide

theorem witness_WordsSelectTheirRow :
    (0x38000000FFFFFFFF : Word64) &&& 0xC7FFFFFF00000000 = 0
      ∧ (0x78000007FFFFFFFF : Word64) &&& 0xC7FFFFF800000000 = 0x4000000000000000
      ∧ (0x4000000800000000 : Word64) &&& 0xC7FFFFFF00000000 ≠ 0
      ∧ (0x4000000800000000 : Word64) &&& 0xC7FFFFF800000000 ≠ 0x4000000000000000 := by decide

/-- An illegal word at each boundary (ENC 0, ENC 5, DEC 0, DEC 6, a reserved bit), and legal ones. -/
theorem witness_IllegalWordsAndOnlyTheyAreIllegal :
    let legal := fun c : Word64 =>
      (c &&& 0xC7FFFFFF00000000 = 0 ∧ 1 ≤ (c.extractLsb 61 59).toNat ∧ (c.extractLsb 61 59).toNat ≤ 4)
        ∨ (c &&& 0xC7FFFFF800000000 = 0x4000000000000000 ∧ 1 ≤ (c.extractLsb 61 59).toNat ∧ (c.extractLsb 61 59).toNat ≤ 5)
    usedIdle.phase = .idle ∧ (offerPins 0).rst = false ∧ (offerPins 0).cmdValid = true ∧ (offerPins 0).cmdData = 0
      ∧ ¬ legal 0 ∧ ¬ legal 0x2800000000000000 ∧ ¬ legal 0x4000000000000000 ∧ ¬ legal 0x7000000000000000
      ∧ ¬ legal 0x6800000800000000 ∧ legal 0x0800000000000000 ∧ legal 0x20000000FFFFFFFF ∧ legal 0x4800000000000000
      ∧ legal 0x68000007FFFFFFFF := by decide

/-- Both branches: n = 1 and n = 4 are legal, n = 0, n = 5 and bit 32 are not. -/
theorem witness_EncLegality :
    let meets := fun c : Word64 =>
      c.extractLsb 58 32 = 0#27 ∧ 1 ≤ (c.extractLsb 61 59).toNat ∧ (c.extractLsb 61 59).toNat ≤ 4
    (0x0800000000000000 : Word64).extractLsb 63 62 = 0#2 ∧ meets 0x0800000000000000 ∧ meets 0x20000000FFFFFFFF
      ∧ ¬ meets 0 ∧ ¬ meets 0x2800000000000000 ∧ ¬ meets 0x2000000100000000 := by decide

/-- Both branches: k = 1 and k = 5 are well formed, k = 0, k = 6 and bit 35 are not. -/
theorem witness_DecWellFormedness :
    let meets := fun c : Word64 =>
      c.extractLsb 58 35 = 0#24 ∧ 1 ≤ (c.extractLsb 61 59).toNat ∧ (c.extractLsb 61 59).toNat ≤ 5
    (0x4800000000000000 : Word64).extractLsb 63 62 = 1#2 ∧ meets 0x4800000000000000 ∧ meets 0x68000007FFFFFFFF
      ∧ ¬ meets 0x4000000000000000 ∧ ¬ meets 0x7000000000000000 ∧ ¬ meets 0x6800000800000000 := by decide

/-- A word of each kind of error found at acceptance, and one answered OVERFLOW. -/
theorem witness_CheckFollowsItsPriority :
    (check 0x8000000000000000).1 ≠ .ok ∧ (check 0x6800000550000000).1 ≠ .ok ∧ (check 0x4800000000000000).1 ≠ .ok
      ∧ rspStatus (result 0x6800000522ED8601) = Status.overflow.code := by decide

/-- A state for each of the first four clauses, the last two for the two ways DEC's fifth micro-step can stop. -/
theorem witness_StopsOnlyOutOfRange :
    quietPins.rst = false ∧ { encLast with step := 5 }.phase = .busy ∧ 5 ≤ { encLast with step := 5 }.step.toNat
      ∧ encLast.step = 4 ∧ encLast.op = 0 ∧ cntFits encLast.op { encLast with cnt := 5 }.cnt = false
      ∧ decLast.phase = .busy ∧ decLast.step = 4 ∧ decLast.op = 1
      ∧ cntFits decLast.op { decLast with cnt := 1 }.cnt = false ∧ cntFits decLast.op { decLast with cnt := 6 }.cnt = false
      ∧ decLast.acc.toNat * 85 + (decLast.dig.get 4).toNat < 2 ^ 33
      ∧ decLast.step.toNat = (4 : Fin 5).val
      ∧ 2 ^ 33 ≤ { decLast with acc := 101058054 }.acc.toNat * 85 + (decLast.dig.get 4).toNat := by decide

/-- A step that stops, for the clause about every stop. -/
theorem witness_StopsOnlyOutOfRange_stop :
    step { encLast with step := 5, host := [quietPins] } = .fault .stepOutOfRange := rfl

/-- ENC's boundary counts, any state, five edges without a reset: the hypotheses of EncStartsAtAcceptance,
EncCompletesWithItsDigits, EncDigitsInClosedForm, EncDigitsAreValid and EncLeavesAccAlone. -/
theorem witness_EncCompletesWithItsDigits :
    (1 ≤ (1 : Count).toNat ∧ (1 : Count).toNat ≤ 4) ∧ (1 ≤ (4 : Count).toNat ∧ (4 : Count).toNat ≤ 4)
      ∧ [quietPins, takePins, offerPins 5, quietPins, quietPins].length = 5
      ∧ noReset [quietPins, takePins, offerPins 5, quietPins, quietPins] := by unfold noReset; decide

theorem witness_EncStartsAtAcceptance : 1 ≤ (4 : Count).toNat ∧ (4 : Count).toNat ≤ 4 := by decide

theorem witness_EncDigitsInClosedForm :
    1 ≤ (3 : Count).toNat ∧ (3 : Count).toNat ≤ 4 ∧ [quietPins, offerPins 5].length ≤ 5 ∧ noReset [quietPins, offerPins 5] := by
  unfold noReset; decide

theorem witness_EncDigitsAreValid :
    1 ≤ (4 : Count).toNat ∧ (4 : Count).toNat ≤ 4 ∧ (List.replicate 5 quietPins).length = 5
      ∧ noReset (List.replicate 5 quietPins) := by unfold noReset; decide

theorem witness_EncLeavesAccAlone :
    1 ≤ (1 : Count).toNat ∧ (1 : Count).toNat ≤ 4 ∧ (List.replicate 5 quietPins).length ≤ 5
      ∧ noReset (List.replicate 5 quietPins) := by unfold noReset; decide

theorem witness_EncMicroStep :
    quietPins.rst = false ∧ encLast.phase = .busy ∧ encLast.op = 0 ∧ encLast.step.toNat ≤ 4
      ∧ 1 ≤ encLast.cnt.toNat ∧ encLast.cnt.toNat ≤ 4 ∧ { encLast with step := 0 }.step.toNat ≤ 4 := by decide

theorem witness_EncFinishBuildsResponse :
    quietPins.rst = false ∧ encLast.phase = .busy ∧ encLast.op = 0 ∧ encLast.step = 4
      ∧ 1 ≤ encLast.cnt.toNat ∧ encLast.cnt.toNat ≤ 4 := by decide

/-- n = 1 with 0xFFAABBCC and 0xFF000000 (R89). -/
theorem witness_EncIgnoresPadBytes :
    1 ≤ (1 : Count).toNat ∧ (1 : Count).toNat ≤ 4
      ∧ ∀ j < (1 : Count).toNat,
          (0xFFAABBCC : GroupWord).extractLsb' (24 - 8 * j) 8 = (0xFF000000 : GroupWord).extractLsb' (24 - 8 * j) 8 := by decide

/-- The tail counts 1 and 3: TailIsThePrefixOfItsPaddedGroup, TailsRoundTrip and NoEncodedTailOverflows. -/
theorem witness_TailIsThePrefixOfItsPaddedGroup :
    (1 ≤ (1 : Count).toNat ∧ (1 : Count).toNat ≤ 3) ∧ (1 ≤ (3 : Count).toNat ∧ (3 : Count).toNat ≤ 3) := by decide

theorem witness_TailsRoundTrip : 1 ≤ (3 : Count).toNat ∧ (3 : Count).toNat ≤ 3 := by decide

theorem witness_NoEncodedTailOverflows : 1 ≤ (2 : Count).toNat ∧ (2 : Count).toNat ≤ 3 := by decide

/-- k = 2 and k = 5 with valid input digits, an invalid one in a missing place (R110). -/
theorem witness_DecCompletesWithItsBytes :
    (2 ≤ (2 : Count).toNat ∧ (2 : Count).toNat ≤ 5
        ∧ ∀ i : Fin 5, i.val < (2 : Count).toNat → ((fiveDigits 84 84 127 0 0).get i).toNat ≤ 84)
      ∧ (2 ≤ (5 : Count).toNat ∧ (5 : Count).toNat ≤ 5
        ∧ ∀ i : Fin 5, i.val < (5 : Count).toNat → ((fiveDigits 82 23 54 12 0).get i).toNat ≤ 84)
      ∧ (List.replicate 5 quietPins).length = 5 ∧ noReset (List.replicate 5 quietPins) := by unfold noReset; decide

theorem witness_DecStartsAtAcceptance :
    2 ≤ (2 : Count).toNat ∧ (2 : Count).toNat ≤ 5
      ∧ ∀ i : Fin 5, i.val < (2 : Count).toNat → ((fiveDigits 84 84 127 0 0).get i).toNat ≤ 84 := by decide

theorem witness_DecHornerSums :
    2 ≤ (5 : Count).toNat ∧ (5 : Count).toNat ≤ 5
      ∧ (∀ i : Fin 5, i.val < (5 : Count).toNat → ((fiveDigits 84 84 84 84 84).get i).toNat ≤ 84)
      ∧ (List.replicate 3 quietPins).length ≤ 5 ∧ noReset (List.replicate 3 quietPins) := by unfold noReset; decide

theorem witness_DecLeavesQAlone :
    2 ≤ (5 : Count).toNat ∧ (5 : Count).toNat ≤ 5
      ∧ (∀ i : Fin 5, i.val < (5 : Count).toNat → ((fiveDigits 84 84 84 84 84).get i).toNat ≤ 84)
      ∧ (List.replicate 5 quietPins).length ≤ 5 ∧ noReset (List.replicate 5 quietPins) := by unfold noReset; decide

/-- The lowest and the highest place, each with the least and the greatest invalid digit. -/
theorem witness_DecInvalidDigitAtLeastPosition :
    (1 ≤ (1 : Count).toNat ∧ (1 : Count).toNat ≤ 5 ∧ (0 : Fin 5).val < (1 : Count).toNat
        ∧ 84 < ((fiveDigits 85 0 0 0 0).get 0).toNat ∧ ∀ j : Fin 5, j < 0 → ((fiveDigits 85 0 0 0 0).get j).toNat ≤ 84)
      ∧ (1 ≤ (5 : Count).toNat ∧ (5 : Count).toNat ≤ 5 ∧ (4 : Fin 5).val < (5 : Count).toNat
        ∧ 84 < ((fiveDigits 84 0 0 84 127).get 4).toNat
        ∧ ∀ j : Fin 5, j < 4 → ((fiveDigits 84 0 0 84 127).get j).toNat ≤ 84) := by decide

theorem witness_DecOneDigitIsTruncated : ((fiveDigits 84 85 0 0 0).get 0).toNat ≤ 84 := by decide

/-- DecMicroStep and DecFinishBuildsResponse: `DEC 2, 81, 81` before its fifth micro-step. -/
theorem witness_DecMicroStep :
    quietPins.rst = false ∧ decLast.phase = .busy ∧ decLast.op = 1 ∧ decLast.step = 4 ∧ StateInv decLast := by
  unfold StateInv digitsOk responseOk; decide

theorem witness_DecFinishBuildsResponse :
    quietPins.rst = false ∧ decLast.phase = .busy ∧ decLast.op = 1 ∧ decLast.step = 4 ∧ StateInv decLast :=
  witness_DecMicroStep

theorem witness_OverflowExactlyAbove32Bits :
    rspStatus (result 0x6800000522ED8601) = Status.overflow.code
      ∧ (0x6800000522ED8601 : Word64) = encode (.dec 5 (fiveDigits 82 23 54 12 1))
      ∧ (∀ i : Fin 5, i.val < (5 : Count).toNat → ((fiveDigits 82 23 54 12 1).get i).toNat ≤ 84)
      ∧ (effectiveDigits 5 (fiveDigits 82 23 54 12 1)).val = 2 ^ 32 := by decide

/-- The greatest value that fits and the least that does not. -/
theorem witness_FullGroupsAreABijection :
    (∀ i, ((fiveDigits 82 23 54 12 0).get i).toNat ≤ 84) ∧ (fiveDigits 82 23 54 12 0).val ≤ 2 ^ 32 - 1
      ∧ (∀ i, ((fiveDigits 82 23 54 12 1).get i).toNat ≤ 84) ∧ 2 ^ 32 - 1 < (fiveDigits 82 23 54 12 1).val := by decide

theorem witness_OnlyPadDigit84RoundTrips : (0 : Digit).toNat < 84 ∧ (83 : Digit).toNat < 84 := by decide

theorem witness_TailsNeedNotBeCanonical :
    2 ≤ (2 : Count).toNat ∧ (2 : Count).toNat ≤ 4
      ∧ (∀ i : Fin 5, i.val < (2 : Count).toNat → ((fiveDigits 82 0 0 0 0).get i).toNat ≤ 84)
      ∧ (effectiveDigits 2 (fiveDigits 82 0 0 0 0)).val ≤ 2 ^ 32 - 1 := by decide

theorem witness_DecIgnoresMissingDigits :
    ∀ i : Fin 5, i.val < (4 : Count).toNat → (fiveDigits 0 0 0 0 85).get i = (fiveDigits 0 0 0 0 0).get i := by decide

theorem witness_ErrorResponseWords :
    (4 : Count).toNat ≤ 4 ∧ (check 0x6800000550000000).1 ≠ .ok ∧ (check 0x200000004D616E20).1 ≠ .invalidDigit
      ∧ rspStatus (result 0x6800000522ED8601) ≠ 0 := by decide

/-- A word for each clause: an error, an ENC and a DEC that succeed, an INVALID_DIGIT. -/
theorem witness_ResponseFieldsOfEveryWord :
    rspStatus (result 0x8000000000000000) ≠ 0
      ∧ decode 0x200000004D616E20 = .ok (.enc 4 0x4D616E20) ∧ rspStatus (result 0x200000004D616E20) = 0
      ∧ decode 0x500000051A200000 = .ok (.dec 2 (fiveDigits 81 81 0 0 0)) ∧ rspStatus (result 0x500000051A200000) = 0
      ∧ rspStatus (result 0x6800000550000000) = 1 := by decide

theorem witness_ErrorsLeaveNoTrace :
    (check 0x4800000000000000).1 ≠ .ok ∧ result 0x6800000522ED8601 = errorWord .overflow 0
      ∧ (List.replicate 5 quietPins).length ≤ 5 ∧ noReset (List.replicate 5 quietPins) ∧ usedIdle.phase = .idle := by
  unfold noReset; decide

theorem witness_DecodeAndEncodeAgree : decode 0x500000051A200000 = .ok (.dec 2 (fiveDigits 81 81 0 0 0)) := by decide

/-- A state that meets the invariant, with a step that answers a next state. -/
theorem witness_EveryStepKeepsInv :
    StateInv { decLast with host := [quietPins] }
      ∧ ∃ t, step { decLast with host := [quietPins] } = .next t ∧ t.phase = .done :=
  ⟨by unfold StateInv digitsOk responseOk; decide, _, rfl, by decide⟩

theorem witness_NoStepStops : StateInv { decLast with host := [quietPins] } := witness_EveryStepKeepsInv.1

/-- The first clause with no more edges, the second with five, the third with four. -/
theorem witness_AcceptedCommandGetsItsResult :
    cmdTransfers (offerPins 0x200000004D616E20) usedIdle = true ∧ (check (offerPins 0x200000004D616E20).cmdData).1 = .ok
      ∧ cmdTransfers (offerPins 0) usedIdle = true ∧ (check (offerPins 0).cmdData).1 ≠ .ok
      ∧ noReset (List.replicate 5 takePins) ∧ (List.replicate 5 takePins).length = 5
      ∧ (List.replicate 4 takePins).length < 5 := by unfold noReset; decide

/-- An ended sequence of two commands answered at acceptance, without a reset; and one whose command a reset dropped. -/
theorem witness_AcceptedCommandGetsItsResult_ended :
    usedIdle.phase = .idle
      ∧ noReset [offerPins 0, takePins, offerPins 0x4800000000000000, takePins]
      ∧ sequenceEnded [0, 0x4800000000000000] [offerPins 0, takePins, offerPins 0x4800000000000000, takePins] false usedIdle
      ∧ sequenceEnded [0x200000004D616E20] [offerPins 0x200000004D616E20, { quietPins with rst := true }] false usedIdle :=
  ⟨by decide, by unfold noReset; decide, ⟨by decide, by decide, by decide, _, rfl, by decide, rfl⟩,
    ⟨by decide, by decide, by decide, _, rfl, by decide, rfl⟩⟩

/-- What keeps a sequence from having ended (R143): an offer that still stands, a response that has not transferred. -/
theorem test_sequence_not_ended :
    offerStands [offerPins 0, offerPins 0] usedIdle = true ∧ unanswered [] [offerPins 0] usedIdle = [0]
      ∧ unanswered [] [offerPins 0, takePins] usedIdle = [] := by decide

theorem witness_ResponsesInOrderOneForEach :
    usedIdle.phase = .idle ∧ noReset [offerPins 0, takePins, offerPins 0x200000004D616E20] := by unfold noReset; decide

theorem witness_ResultDependsOnlyOnTheCommand :
    usedIdle.phase = .idle ∧ State.reset.phase = .idle
      ∧ cmdTransfers (offerPins 0) usedIdle = true ∧ cmdTransfers (offerPins 0) State.reset = true
      ∧ noReset [quietPins] ∧ (∀ q ∈ [quietPins], q.rspReady = false)
      ∧ ∃ u u', runEdges [offerPins 0, quietPins] usedIdle = .next u ∧ runEdges [offerPins 0, quietPins] State.reset = .next u'
          ∧ u.phase = .done ∧ u'.phase = .done := by
  unfold noReset; exact ⟨by decide, by decide, by decide, by decide, by decide, by decide, _, _, rfl, rfl, by decide, by decide⟩

theorem witness_EdgesPerCommand :
    usedIdle.phase = .idle ∧ (check 0x200000004D616E20).1 = .ok ∧ (check 0).1 ≠ .ok
      ∧ ∀ p ∈ List.replicate 7 { offerPins 9 with rspReady := true },
          p.rst = false ∧ p.rspReady = true ∧ p.cmdValid = true ∧ p.cmdData = 9 := by decide

theorem witness_AssemblerPlacesOperands : [81, 81].length < 5 := by decide

theorem witness_BufferLengthLaws : decodeBuffer [81, 81] = .ok [0xFF] := by rfl

/-- An alphabet: the 85 characters from `!` on. -/
def someAlphabet : List Char := (List.range 85).map fun i => Char.ofNat (33 + i)

theorem witness_BuffersRoundTrip : alphabetOk someAlphabet = true := by decide +kernel

/-- The first clause with a space at position 1, the second with six characters of the alphabet. -/
theorem witness_WrapperErrorsOfTexts :
    alphabetOk someAlphabet = true ∧ 1 < ['!', ' '].length ∧ (∀ j < 1, ['!', ' '].getD j ' ' ∈ someAlphabet)
      ∧ ['!', ' '].getD 1 ' ' ∉ someAlphabet
      ∧ (∀ ch ∈ List.replicate 6 '!', ch ∈ someAlphabet) ∧ (List.replicate 6 '!').length % 5 = 1 :=
  ⟨witness_BuffersRoundTrip, by decide, by decide +kernel, by decide +kernel,
    fun ch h => by rw [List.eq_of_mem_replicate h]; decide, by decide⟩

/-- A chunk for each of its three outcomes, at the values R109 gives. -/
theorem witness_WrapperErrorsOfChunks :
    (2 ≤ [84, 85].length ∧ [84, 85].length ≤ 5 ∧ 1 < [84, 85].length ∧ 84 < ([84, 85].getD 1 (0 : Digit)).toNat
        ∧ ∀ j < 1, ([84, 85].getD j (0 : Digit)).toNat ≤ 84)
      ∧ ((∀ d ∈ [(82 : Digit), 84], d.toNat ≤ 84) ∧ 2 ^ 32 - 1 < (effectiveDigits 2 (issueDigits [82, 84])).val)
      ∧ ((∀ d ∈ [(82 : Digit), 0], d.toNat ≤ 84) ∧ (effectiveDigits 2 (issueDigits [82, 0])).val ≤ 2 ^ 32 - 1) := by decide

/-- Chunk 0 decodes and chunk 1 overflows: the hypotheses of the error clause with j = 1; then those of the bytes clause. -/
theorem witness_WrapperErrorsOfChunks_text :
    let ds : List Digit := [82, 23, 54, 12, 0, 82, 84]
    let good : List Digit := [82, 23, 54, 12, 0, 81, 81]
    ds.length % 5 ≠ 1 ∧ 5 * 1 < ds.length
      ∧ decodeChunk ds.length 0 ((ds.drop (5 * 0)).take 5) = .ok [0xFF, 0xFF, 0xFF, 0xFF]
      ∧ decodeChunk ds.length 1 ((ds.drop (5 * 1)).take 5) = .error (.overflow 1)
      ∧ [[0xFF, 0xFF, 0xFF, 0xFF], [(0xFF : Byte)]].length = (good.length + 4) / 5
      ∧ decodeChunk good.length 0 ((good.drop (5 * 0)).take 5) = .ok [0xFF, 0xFF, 0xFF, 0xFF]
      ∧ decodeChunk good.length 1 ((good.drop (5 * 1)).take 5) = .ok [0xFF] :=
  ⟨by decide, by decide, rfl, rfl, by decide, rfl, rfl⟩

end Sys2Proof.Tests
end

section
/-! PROOFS. Family 00_scope (R16): a bisimulation between states that a host cannot tell apart.
Two states are alike when they are in the same phase and agree on the registers that phase still reads: none in IDLE, RSP in
DONE, and in BUSY the registers of the command in flight. Every edge keeps this, so the two states transfer the same words. -/

namespace Sys2Proof.Machine

/-! ### The relation -/

/-- Both states work on the same command and have come equally far: they agree on the registers that the micro-steps and the
finish of that command read (R82, R83, R99, R101), Q for ENC and ACC for DEC. -/
structure SameWork (s t : State) : Prop where
  busy_left  : s.phase = .busy
  busy_right : t.phase = .busy
  op   : s.op = t.op
  cnt  : s.cnt = t.cnt
  step : s.step = t.step
  dig  : s.dig = t.dig
  q    : s.op = 0 → s.q = t.q
  acc  : s.op = 1 → s.acc = t.acc

/-- Both states owe the same response: they still work on it, or RSP already holds it. -/
inductive OweAlike (s t : State) : Prop where
  | busy (work : SameWork s t)
  | done (hs : s.phase = .done) (ht : t.phase = .done) (rsp : s.rsp = t.rsp)

/-- No host can tell the two states apart: both are in IDLE, or both owe the same response. -/
inductive Alike (s t : State) : Prop where
  | idle (hs : s.phase = .idle) (ht : t.phase = .idle)
  | owe (h : OweAlike s t)

/-- Two outcomes that stop for the same reason, or go on in states related by R. -/
inductive OutcomesAlike (R : State → State → Prop) :
    Host.Outcome State Fault Refusal → Host.Outcome State Fault Refusal → Prop where
  | next {s t : State} (h : R s t) : OutcomesAlike R (.next s) (.next t)
  | fault (r : Fault) : OutcomesAlike R (.fault r) (.fault r)
  | refused (r : Refusal) : OutcomesAlike R (.refused r) (.refused r)

theorem OutcomesAlike.imp {R R' : State → State → Prop} {x y : Host.Outcome State Fault Refusal}
    (hR : ∀ s t, R s t → R' s t) (h : OutcomesAlike R x y) : OutcomesAlike R' x y := by
  cases h with
  | next h => exact .next (hR _ _ h)
  | fault r => exact .fault r
  | refused r => exact .refused r

theorem OweAlike.phase_eq {s t : State} (h : OweAlike s t) : s.phase = t.phase := by
  cases h with
  | busy work => rw [work.busy_left, work.busy_right]
  | done hs ht => rw [hs, ht]

theorem Alike.phase_eq {s t : State} (h : Alike s t) : s.phase = t.phase := by
  cases h with
  | idle hs ht => rw [hs, ht]
  | owe h => exact h.phase_eq

/-! ### What a BUSY edge does with the same work -/

theorem sameWork_countStep {s t : State} (h : SameWork s t) : SameWork (countStep s) (countStep t) :=
  { h with step := by simp [h.step] }

theorem sameWork_encStep (i : Fin 5) {s t : State} (h : SameWork s t) (ho : s.op = 0) :
    SameWork (encStep i s) (encStep i t) :=
  { h with
    dig := by simp [h.dig, h.q ho]
    q := fun _ => by simp [h.q ho] }

theorem hornerValue_eq (i : Fin 5) {s t : State} (h : SameWork s t) (ho : s.op = 1) :
    hornerValue i s = hornerValue i t := by
  rw [hornerValue, hornerValue, h.acc ho, h.dig]

theorem sameWork_accumulate (i : Fin 5) {s t : State} (h : SameWork s t) (ho : s.op = 1) :
    SameWork (accumulate i s) (accumulate i t) :=
  { h with acc := fun _ => by simp [hornerValue_eq i h ho] }

theorem microStep_alike (i : Fin 5) {s t : State} (h : SameWork s t) :
    OutcomesAlike SameWork (microStep i s) (microStep i t) := by
  unfold microStep
  rw [← h.op]
  rcases op_zero_or_one s.op with ho | ho
  · rw [if_pos ho, if_pos ho]
    exact .next (sameWork_encStep i h ho)
  · have h0 : s.op ≠ 0 := by rw [ho]; decide
    rw [if_neg h0, if_neg h0, decStep, decStep, ← hornerValue_eq i h ho]
    split
    · exact .next (sameWork_accumulate i h ho)
    · exact .fault _

theorem finish_alike {s t : State} (h : SameWork s t) : OutcomesAlike OweAlike (finish s) (finish t) := by
  unfold finish
  rw [← h.op, ← h.cnt]
  split
  · rcases op_zero_or_one s.op with ho | ho
    · rw [if_pos ho, if_pos ho]
      exact .next (.done rfl rfl (by simp [h.cnt, h.dig]))
    · have h0 : s.op ≠ 0 := by rw [ho]; decide
      rw [if_neg h0, if_neg h0]
      exact .next (.done rfl rfl (by simp [h.cnt, h.acc ho]))
  · exact .fault _

theorem busyEdge_alike {s t : State} (h : SameWork s t) : OutcomesAlike OweAlike (busyEdge s) (busyEdge t) := by
  unfold busyEdge
  rw [← h.step]
  cases stepPlace s.step with
  | none => exact .fault _
  | some i =>
    have hm := microStep_alike i h
    dsimp only
    generalize microStep i s = x, microStep i t = y at hm
    cases hm with
    | next hw =>
      have hc := sameWork_countStep hw
      by_cases h4 : i = 4
      · simp only [if_pos h4]
        exact finish_alike hc
      · simp only [if_neg h4]
        exact .next (.busy hc)
    | fault r => exact .fault r
    | refused r => exact .refused r

/-! ### The other edges -/

/-- ENC_INIT and DEC_INIT write every register that the computation they start reads (R81, R98). -/
theorem sameWork_start (i : Instr) (s t : State) : SameWork (start i s) (start i t) := by
  cases i with
  | enc n v => exact ⟨rfl, rfl, rfl, rfl, rfl, rfl, fun _ => rfl, fun h => absurd h (by simp [start])⟩
  | dec k d => exact ⟨rfl, rfl, rfl, rfl, rfl, rfl, fun h => absurd h (by simp [start]), fun _ => rfl⟩

/-- Whatever two states hold, accepting one word in both makes them owe the same response. -/
theorem accept_alike (c : Word64) (s t : State) : OutcomesAlike OweAlike (accept c s) (accept c t) := by
  by_cases hc : (check c).1 = .ok
  · obtain ⟨i, hd, hi⟩ := check_ok_decodes c hc
    rw [accept_of_ok c s i hd hi, accept_of_ok c t i hd hi]
    exact .next (.busy (sameWork_start i s t))
  · rw [accept_of_error c s hc, accept_of_error c t hc]
    exact .next (.done rfl rfl rfl)

/-- Every edge keeps two states alike: the bisimulation's step. -/
theorem edge_alike (p : Pins) {s t : State} (h : Alike s t) : OutcomesAlike Alike (edge p s) (edge p t) := by
  cases hr : p.rst with
  | true =>
    rw [edge_reset p s hr, edge_reset p t hr]
    exact .next (.idle rfl rfl)
  | false =>
    cases h with
    | idle hs ht =>
      cases hv : p.cmdValid with
      | false =>
        rw [edge_idle_quiet p s hr hs hv, edge_idle_quiet p t hr ht hv]
        exact .next (.idle hs ht)
      | true =>
        rw [edge_idle_command p s hr hs hv, edge_idle_command p t hr ht hv]
        exact (accept_alike p.cmdData s t).imp fun _ _ => .owe
    | owe h =>
      cases h with
      | busy work =>
        rw [edge_busy p s hr work.busy_left, edge_busy p t hr work.busy_right]
        exact (busyEdge_alike work).imp fun _ _ => .owe
      | done hs ht rsp =>
        cases hq : p.rspReady with
        | false =>
          rw [edge_done_held p s hr hs hq, edge_done_held p t hr ht hq]
          exact .next (.owe (.done hs ht rsp))
        | true =>
          rw [edge_done_taken p s hr hs hq, edge_done_taken p t hr ht hq]
          exact .next (.idle rfl rfl)

/-! ### What transfers -/

theorem cmdTransfers_alike (p : Pins) {s t : State} (h : Alike s t) : cmdTransfers p s = cmdTransfers p t := by
  rw [cmdTransfers, cmdTransfers, cmdReady, cmdReady, h.phase_eq]

theorem rspTransfers_alike (p : Pins) {s t : State} (h : Alike s t) : rspTransfers p s = rspTransfers p t := by
  rw [rspTransfers, rspTransfers, rspValid, rspValid, h.phase_eq]

/-- Where a response transfers, it is the same word. -/
theorem rspData_alike (p : Pins) {s t : State} (h : Alike s t) (hp : rspTransfers p s = true) : rspData s = rspData t := by
  have hd := ((rspTransfers_iff p s).1 hp).2.2
  cases h with
  | idle hs _ => rw [hs] at hd; cases hd
  | owe h =>
    cases h with
    | busy work => rw [work.busy_left] at hd; cases hd
    | done _ _ rsp => exact rsp

/-- What the response port transfers at one edge is the same. -/
theorem rspTransferred_alike (p : Pins) {s t : State} (h : Alike s t) :
    (if rspTransfers p s then [rspData s] else []) = if rspTransfers p t then [rspData t] else [] := by
  rw [← rspTransfers_alike p h]
  split
  · next hp => rw [rspData_alike p h hp]
  · rfl

theorem transfers_alike (ps : List Pins) {s t : State} (h : Alike s t) :
    accepted ps s = accepted ps t ∧ responses ps s = responses ps t := by
  induction ps generalizing s t with
  | nil => exact ⟨rfl, rfl⟩
  | cons p ps ih =>
    have he := edge_alike p h
    rw [accepted, accepted, responses, responses, cmdTransfers_alike p h, rspTransferred_alike p h]
    generalize edge p s = x, edge p t = y at he
    cases he with
    | next h' =>
      obtain ⟨ha, hr⟩ := ih h'
      exact ⟨congrArg (_ ++ ·) ha, congrArg (_ ++ ·) hr⟩
    | fault r => exact ⟨rfl, rfl⟩
    | refused r => exact ⟨rfl, rfl⟩

/-! ### One word at two moments -/

/-- A response that is not taken stays, and so does everything else (R21). -/
theorem runEdges_done_held (ps : List Pins) (s : State) (hr : noReset ps) (hq : ∀ p ∈ ps, p.rspReady = false)
    (hs : s.phase = .done) : runEdges ps s = .next s := by
  induction ps with
  | nil => rfl
  | cons p ps ih =>
    rw [noReset, List.forall_mem_cons] at hr
    rw [List.forall_mem_cons] at hq
    rw [runEdges_cons_next p ps s s (edge_done_held p s hr.1 hs hq.1)]
    exact ih hr.2 hq.2

/-- The edge does not matter at which the host looks, nor what it drives meanwhile: two states that owe the same response hold
the same RSP as soon as both have it, after different numbers of edges too. -/
theorem rsp_eq_of_oweAlike (ps ps' : List Pins) {s t u u' : State} (h : OweAlike s t)
    (hr : noReset ps) (hr' : noReset ps') (hq : ∀ p ∈ ps, p.rspReady = false) (hq' : ∀ p ∈ ps', p.rspReady = false)
    (hu : runEdges ps s = .next u) (hu' : runEdges ps' t = .next u') (hd : u.phase = .done) (hd' : u'.phase = .done) :
    u.rsp = u'.rsp := by
  induction ps generalizing ps' s t with
  | nil =>
    cases hu
    rw [runEdges_done_held ps' t hr' hq' (h.phase_eq ▸ hd)] at hu'
    cases h with
    | busy work => rw [work.busy_left] at hd; cases hd
    | done _ _ rsp => cases hu'; exact rsp
  | cons p ps ih =>
    cases h with
    | done hs ht rsp =>
      rw [runEdges_done_held _ s hr hq hs] at hu
      rw [runEdges_done_held _ t hr' hq' ht] at hu'
      cases hu; cases hu'; exact rsp
    | busy work =>
      cases ps' with
      | nil => cases hu'; rw [work.busy_right] at hd'; cases hd'
      | cons p' ps' =>
        rw [noReset, List.forall_mem_cons] at hr hr'
        rw [List.forall_mem_cons] at hq hq'
        have he := busyEdge_alike work
        rw [runEdges, edge_busy p s hr.1 work.busy_left] at hu
        rw [runEdges, edge_busy p' t hr'.1 work.busy_right] at hu'
        generalize busyEdge s = x, busyEdge t = y at he hu hu'
        cases he with
        | next h' => exact ih ps' h' hr.2 hr'.2 hq.2 hq'.2 hu hu'
        | fault r => cases hu
        | refused r => cases hu

/-- Where a command transfers, the edge is its acceptance (R18, R37). -/
theorem edge_of_cmdTransfers (p : Pins) (s : State) (h : cmdTransfers p s = true) : edge p s = accept p.cmdData s := by
  obtain ⟨hr, hv, hs⟩ := (cmdTransfers_iff p s).1 h
  exact edge_idle_command p s hr hs hv

/-- Settles O54: two states in IDLE are alike and every edge keeps them so; one word accepted at two moments makes the two
states owe the same response. -/
theorem resultDependsOnlyOnTheCommand : Obligations.ResultDependsOnlyOnTheCommand := by
  unfold Obligations.ResultDependsOnlyOnTheCommand
  constructor
  · intro ps s t hs ht
    exact transfers_alike ps (.idle hs ht)
  · intro p p' ps ps' s t u u' hp hp' hw hr hr' hu hu' hd hd' hq hq'
    have he := accept_alike p.cmdData s t
    rw [runEdges, edge_of_cmdTransfers p s hp] at hu
    rw [runEdges, edge_of_cmdTransfers p' t hp', hw] at hu'
    generalize accept p.cmdData s = x, accept p.cmdData t = y at he hu hu'
    cases he with
    | next h => exact rsp_eq_of_oweAlike ps ps' h hr hr' hq hq' hu hu' hd hd'
    | fault r => cases hu
    | refused r => cases hu

end Sys2Proof.Machine
end

section
/-! PROOFS. Family 10_state: the ports, the invariant of the registers, and what an accepted command is answered with.
The refinement runs in three layers: how far a computing command has come (`Reached`, kept by every BUSY edge), what a state
owes the host (`Owes`, kept by every edge, resets too), and the balance of a run (`responses_balance`: what transferred and what
is still owed are together RESULT of what was accepted). -/

namespace Sys2Proof.Machine

/-! ### The ports -/

theorem cmdReady_iff (rst : Bool) (s : State) : cmdReady rst s = true ↔ s.phase = .idle ∧ rst = false := by
  simp [cmdReady]

theorem rspValid_iff (rst : Bool) (s : State) : rspValid rst s = true ↔ s.phase = .done ∧ rst = false := by
  simp [rspValid]

/-- At an edge where the response transfers, PHASE goes to IDLE and no other register changes (R37). -/
theorem edge_of_rspTransfers (p : Pins) (s : State) (h : rspTransfers p s = true) : edge p s = .next (takeResponse s) := by
  obtain ⟨hr, hq, hs⟩ := (rspTransfers_iff p s).1 h
  exact edge_done_taken p s hr hs hq

/-- Settles O1: a step with `rst` = 1 is `applyReset` of the state whose pins have been taken. -/
theorem resetSetsEveryRegister : Obligations.ResetSetsEveryRegister := by
  unfold Obligations.ResetSetsEveryRegister
  refine ⟨fun s h => ?_, rfl, rfl, rfl, rfl, rfl, rfl, zeroDigits_get, rfl⟩
  exact edge_reset (pinsNow s) (advance s) h

/-- Settles O4: by the definition of `cmd_ready`, and because a reset edge leaves IDLE. -/
theorem commandReadyExactlyInIdle : Obligations.CommandReadyExactlyInIdle := by
  unfold Obligations.CommandReadyExactlyInIdle
  refine ⟨cmdReady_iff, fun p p' s hp hp' hv => ?_⟩
  have hi := applyReset_phase s
  exact ⟨applyReset s, edge_reset p s hp, hi, (cmdReady_iff _ _).2 ⟨hi, hp'⟩,
    (cmdTransfers_iff p' _).2 ⟨hp', hv, hi⟩⟩

/-- Settles O5: in DONE the edge either holds the state or takes the response, and neither writes RSP. -/
theorem responseValidAndHeldInDone : Obligations.ResponseValidAndHeldInDone := by
  unfold Obligations.ResponseValidAndHeldInDone
  refine ⟨rspValid_iff, fun _ => rfl, fun p s hs hr => ?_⟩
  cases hq : p.rspReady with
  | false => exact ⟨s, edge_done_held p s hr hs hq, rfl, fun _ => (rspValid_iff false s).2 ⟨hs, rfl⟩⟩
  | true =>
    have ht := (rspTransfers_iff p s).2 ⟨hr, hq, hs⟩
    exact ⟨takeResponse s, edge_of_rspTransfers p s ht, rfl, fun hn => absurd (ht.symm.trans hn) (by decide)⟩

/-- Without a transfer at the command port, only `rst` and `rsp_ready` enter an edge (R18). -/
theorem edge_eq_of_no_command (p p' : Pins) (s : State) (hr : p'.rst = p.rst) (hq : p'.rspReady = p.rspReady)
    (h : cmdTransfers p s = false) (h' : cmdTransfers p' s = false) : edge p' s = edge p s := by
  cases hp : p.rst with
  | true => rw [edge_reset p s hp, edge_reset p' s (hr.trans hp)]
  | false =>
    have hp' := hr.trans hp
    cases hs : s.phase with
    | idle =>
      have hv : p.cmdValid = false := by simpa [cmdTransfers, cmdReady, hp, hs] using h
      have hv' : p'.cmdValid = false := by simpa [cmdTransfers, cmdReady, hp', hs] using h'
      rw [edge_idle_quiet p s hp hs hv, edge_idle_quiet p' s hp' hs hv']
    | busy => rw [edge_busy p s hp hs, edge_busy p' s hp' hs]
    | done => simp only [edge, hr, hs, hq]

/-- Settles O6: outside a transfer an edge does not read the command port. -/
theorem commandSampledOnlyAtTransfer : Obligations.CommandSampledOnlyAtTransfer := by
  unfold Obligations.CommandSampledOnlyAtTransfer
  refine ⟨fun p s => ?_, edge_of_cmdTransfers, edge_eq_of_no_command, fun p s hs hr hv => edge_idle_quiet p s hr hs hv⟩
  rw [cmdTransfers_iff, cmdReady_iff]
  tauto

/-- Without a transfer at the response port, `rsp_ready` does not enter an edge (R19). -/
theorem edge_eq_of_no_response (p p' : Pins) (s : State) (hr : p'.rst = p.rst) (hv : p'.cmdValid = p.cmdValid)
    (hw : p'.cmdData = p.cmdData) (h : rspTransfers p s = false) (h' : rspTransfers p' s = false) :
    edge p' s = edge p s := by
  cases hp : p.rst with
  | true => rw [edge_reset p s hp, edge_reset p' s (hr.trans hp)]
  | false =>
    have hp' := hr.trans hp
    cases hs : s.phase with
    | idle => simp only [edge, hr, hs, hv, hw]
    | busy => rw [edge_busy p s hp hs, edge_busy p' s hp' hs]
    | done =>
      have hq : p.rspReady = false := by simpa [rspTransfers, rspValid, hp, hs] using h
      have hq' : p'.rspReady = false := by simpa [rspTransfers, rspValid, hp', hs] using h'
      rw [edge_done_held p s hp hs hq, edge_done_held p' s hp' hs hq']

/-- Settles O7: a transferring response only moves PHASE, and any other edge does not read `rsp_ready`. -/
theorem responseTakenOnlyAtTransfer : Obligations.ResponseTakenOnlyAtTransfer := by
  unfold Obligations.ResponseTakenOnlyAtTransfer
  refine ⟨fun p s => ?_, edge_of_rspTransfers, edge_eq_of_no_response⟩
  rw [rspTransfers_iff, rspValid_iff]
  tauto

/-! ### STEP counts the micro-steps (R29) -/

theorem countStep_step_toNat (s : State) (h : s.step.toNat ≤ 4) : (countStep s).step.toNat = s.step.toNat + 1 :=
  count_succ_toNat s.step (by omega)

theorem encStep_counted (i : Fin 5) (s : State) (hi : s.step.toNat = i.val) :
    (countStep (encStep i s)).step.toNat = i.val + 1 :=
  hi ▸ countStep_step_toNat (encStep i s) (by rw [encStep_step]; omega)

theorem accumulate_counted (i : Fin 5) (s : State) (hi : s.step.toNat = i.val) :
    (countStep (accumulate i s)).step.toNat = i.val + 1 :=
  hi ▸ countStep_step_toNat (accumulate i s) (by rw [accumulate_step]; omega)

/-! ### Horner sums (R99, R100) -/

/-- The value of the first m of five digits, `Σ_{j<m} d[j] × 85^(m−1−j)`: what ACC holds after m micro-steps of DEC. -/
def hornerSum (d : Digits) (m : Nat) : Nat :=
  ∑ j : Fin 5, if j.val < m then (d.get j).toNat * 85 ^ (m - 1 - j.val) else 0

@[simp] theorem hornerSum_zero (d : Digits) : hornerSum d 0 = 0 := by simp [hornerSum]

theorem hornerSum_succ (d : Digits) (i : Fin 5) :
    hornerSum d (i.val + 1) = hornerSum d i.val * 85 + (d.get i).toNat := by
  fin_cases i <;> simp [hornerSum, Fin.sum_univ_five] <;> ring

theorem hornerSum_five (d : Digits) : hornerSum d 5 = d.val := by
  simp [hornerSum, Digits.val_eq_sum, Fin.sum_univ_five]

/-- A Horner step on a value of m digits gives a value of m + 1 digits (R100). -/
theorem horner_le_pow (a x m : Nat) (ha : a ≤ 85 ^ m - 1) (hx : x ≤ 84) : a * 85 + x ≤ 85 ^ (m + 1) - 1 := by
  have hpos : 0 < 85 ^ m := Nat.pow_pos (by decide)
  rw [pow_succ]
  omega

theorem hornerSum_le (d : Digits) (hd : digitsOk d) (m : Nat) (hm : m ≤ 5) : hornerSum d m ≤ 85 ^ m - 1 := by
  induction m with
  | zero => simp
  | succ m ih =>
    rw [hornerSum_succ d ⟨m, hm⟩]
    exact horner_le_pow _ _ m (ih (by omega)) (hd _)

/-- Every value of at most five digits is far below the range of ACC. -/
theorem pow85_le (m : Nat) (hm : m ≤ 5) : 85 ^ m ≤ 85 ^ 5 := Nat.pow_le_pow_right (by decide) hm

/-! ### Digit vectors that hold digits -/

theorem digitsOk_zero : digitsOk zeroDigits := fun i => by simp

theorem digitsOk_set (d : Digits) (i : Fin 5) (x : Digit) (hd : digitsOk d) (hx : x.toNat ≤ 84) :
    digitsOk (d.set i x) := by
  intro j
  by_cases h : j = i
  · rw [h, Digits.get_set_same]; exact hx
  · rw [Digits.get_set_other d i j x h]; exact hd j

/-- The effective digits of a command that passes its check are digits (R98). -/
theorem digitsOk_effectiveDigits (k : Count) (d : Digits) (h : ∀ i : Fin 5, i.val < k.toNat → (d.get i).toNat ≤ 84) :
    digitsOk (effectiveDigits k d) := by
  intro i
  rw [effectiveDigits_get]
  split
  · next hi => exact h i hi
  · exact Nat.le_refl 84

theorem mod85_digit_toNat (x : Nat) : (BitVec.ofNat 7 (x % Config.radix)).toNat = x % 85 := by
  rw [BitVec.toNat_ofNat, Config.radix]
  omega

/-! ### Response words the block produces -/

theorem code_eq_zero_iff (s : Status) : s.code = 0 ↔ s = .ok := by cases s <;> decide

theorem code_eq_one_iff (s : Status) : s.code = 1 ↔ s = .invalidDigit := by cases s <;> decide

theorem code_le_four (s : Status) : s.code.toNat ≤ 4 := by cases s <;> decide

theorem responseOk_respond (s : Status) (oc ep : Count) (pl : Payload) (hoc : oc.toNat ≤ 5) (hep : ep.toNat ≤ 4)
    (herr : s ≠ .ok → oc = 0 ∧ pl = 0) (hpos : s ≠ .invalidDigit → ep = 0) : responseOk (respond s oc ep pl) := by
  unfold responseOk
  simp only [rspStatus_respond, rspOcnt_respond, rspEpos_respond, rspZero_respond, rspPayload_respond, ne_eq,
    code_eq_zero_iff, code_eq_one_iff]
  exact ⟨code_le_four s, hoc, hep, trivial, herr, hpos⟩

/-- The position `check` reports is a place of a digit, and 0 but for INVALID_DIGIT (R69, R120). -/
theorem decCheck_position (k : Count) (d : Digits) :
    (decCheck k d).2.toNat ≤ 4 ∧ ((decCheck k d).1 ≠ .invalidDigit → (decCheck k d).2 = 0) := by
  by_cases h : 1 ≤ k.toNat ∧ k.toNat ≤ 5
  · cases hf : firstInvalid k d with
    | some i =>
      rw [decCheck_of_invalid k d i h hf]
      exact ⟨by have := i.isLt; rw [BitVec.toNat_ofNat]; omega, fun hn => absurd rfl hn⟩
    | none =>
      rw [decCheck_of_valid k d h hf]
      split <;> exact ⟨Nat.zero_le 4, fun _ => rfl⟩
  · rw [decCheck_of_bad k d h]
    exact ⟨Nat.zero_le 4, fun _ => rfl⟩

theorem encCheck_position (n : Count) : (encCheck n).2 = 0 := by
  unfold encCheck
  split <;> rfl

theorem check_position (c : Word64) :
    (check c).2.toNat ≤ 4 ∧ ((check c).1 ≠ .invalidDigit → (check c).2 = 0) := by
  cases hd : decode c with
  | error e => simp [check, hd]
  | ok i =>
    rw [check_of_decode c i hd]
    cases i with
    | enc n v => simp [checkInstr, encCheck_position n]
    | dec k d => exact decCheck_position k d

/-- RSP's reset value (R38). -/
theorem responseOk_zero : responseOk 0 := by unfold responseOk; decide

theorem responseOk_check (c : Word64) : responseOk (errorWord (check c).1 (check c).2) := by
  obtain ⟨hle, hpos⟩ := check_position c
  exact responseOk_respond _ _ _ _ (by decide) hle (fun _ => ⟨rfl, rfl⟩) hpos

theorem responseOk_encWord (n : Count) (d : Digits) (hn : n.toNat ≤ 4) : responseOk (encWord n d) := by
  refine responseOk_respond _ _ _ _ ?_ (by decide) (fun h => absurd rfl h) (fun _ => rfl)
  rw [count_succ_toNat n (by omega)]
  omega

theorem responseOk_decWord (k : Count) (value : Nat) (hk : 1 ≤ k.toNat) (hk5 : k.toNat ≤ 5) :
    responseOk (decWord k value) := by
  unfold decWord
  split
  · exact responseOk_respond _ _ _ _ (by decide) (by decide) (fun _ => ⟨rfl, rfl⟩) (fun _ => rfl)
  · refine responseOk_respond _ _ _ _ ?_ (by decide) (fun h => absurd rfl h) (fun _ => rfl)
    rw [count_pred_toNat k hk]
    omega

/-! ### The invariant of the registers -/

theorem cntFits_enc_iff (n : Count) : cntFits 0 n = true ↔ 1 ≤ n.toNat ∧ n.toNat ≤ 4 := by simp [cntFits]

theorem cntFits_dec_iff (k : Count) : cntFits 1 k = true ↔ 2 ≤ k.toNat ∧ k.toNat ≤ 5 := by simp [cntFits]

/-- Outside BUSY the invariant asks nothing of OP, CNT and Q, and of ACC only its range. -/
theorem stateInv_of_not_busy (s : State) (hp : s.phase ≠ .busy) (hstep : s.step.toNat ≤ 5) (hdig : digitsOk s.dig)
    (hacc : s.acc.toNat ≤ 85 ^ 5 - 1) (hrsp : responseOk s.rsp) : StateInv s :=
  ⟨hstep, fun h => absurd h hp, hdig, hacc, fun h => absurd h hp, hrsp⟩

/-- While ENC works, ACC keeps the value it had (R91). -/
theorem stateInv_of_enc (s : State) (ho : s.op = 0) (hstep : s.step.toNat ≤ 4)
    (hcnt : 1 ≤ s.cnt.toNat ∧ s.cnt.toNat ≤ 4) (hdig : digitsOk s.dig) (hacc : s.acc.toNat ≤ 85 ^ 5 - 1) (hrsp : responseOk s.rsp) : StateInv s :=
  ⟨by omega, fun _ => ⟨hstep, by rw [ho]; exact (cntFits_enc_iff _).2 hcnt⟩, hdig, hacc,
    fun _ h => absurd (ho.symm.trans h) (by decide), hrsp⟩

/-- While DEC works, the bound that STEP gives for ACC is the sharper one (R100). -/
theorem stateInv_of_dec (s : State) (ho : s.op = 1) (hstep : s.step.toNat ≤ 4)
    (hcnt : 2 ≤ s.cnt.toNat ∧ s.cnt.toNat ≤ 5) (hdig : digitsOk s.dig) (hacc : s.acc.toNat ≤ 85 ^ s.step.toNat - 1) (hrsp : responseOk s.rsp) : StateInv s :=
  ⟨by omega, fun _ => ⟨hstep, by rw [ho]; exact (cntFits_dec_iff _).2 hcnt⟩, hdig,
    hacc.trans (Nat.sub_le_sub_right (pow85_le _ (by omega)) 1), fun _ _ => hacc, hrsp⟩

theorem stateInv_applyReset (s : State) : StateInv (applyReset s) :=
  stateInv_of_not_busy _ (by simp) (by simp) digitsOk_zero (by simp) responseOk_zero

/-- Settles O49: the registers of `State.reset` are those of any state after a reset edge. -/
theorem invHoldsAtReset : Obligations.InvHoldsAtReset := stateInv_applyReset State.reset

theorem stateInv_advance (s : State) : StateInv (advance s) ↔ StateInv s := by simp [StateInv]

/-- A command that passes its check starts within the invariant, whatever it finds in the registers it writes. -/
theorem stateInv_start (i : Instr) (s : State) (h : StateInv s) (hi : (checkInstr i).1 = .ok) : StateInv (start i s) := by
  obtain ⟨-, -, -, hacc, -, hrsp⟩ := h
  cases i with
  | enc n v => exact stateInv_of_enc _ rfl (Nat.zero_le 4) ((encCheck_ok_iff n).1 hi) digitsOk_zero hacc hrsp
  | dec k d =>
    obtain ⟨hk2, hk5, hd⟩ := (decCheck_ok_iff k d).1 hi
    exact stateInv_of_dec _ rfl (Nat.zero_le 4) ⟨hk2, hk5⟩ (digitsOk_effectiveDigits k d hd) (Nat.zero_le _) hrsp

/-- The digit an encoder micro-step writes is a remainder by 85 (R82, R85). -/
theorem digitsOk_encStep (i : Fin 5) (s : State) (h : digitsOk s.dig) : digitsOk (encStep i s).dig := by
  refine digitsOk_set _ _ _ h ?_
  rw [mod85_digit_toNat]
  omega

/-- In BUSY with OP = 1 a Horner step keeps the bound that STEP gives for ACC (R100). -/
theorem accumulate_acc_le (i : Fin 5) (s : State) (h : StateInv s) (hs : s.phase = .busy) (ho : s.op = 1)
    (hi : s.step.toNat = i.val) (hv : hornerValue i s < 2 ^ 33) : (accumulate i s).acc.toNat ≤ 85 ^ (i.val + 1) - 1 := by
  obtain ⟨-, -, hdig, -, hacc, -⟩ := h
  rw [accumulate_acc, BitVec.toNat_ofNat, Nat.mod_eq_of_lt hv]
  exact horner_le_pow _ _ _ (hi ▸ hacc hs ho) (hdig i)

/-- Every edge keeps the invariant, whatever the host drives. -/
theorem edge_keeps_stateInv (p : Pins) (s t : State) (h : StateInv s) (he : edge p s = .next t) : StateInv t := by
  have hinv := h
  obtain ⟨hstep, hbusy, hdig, hacc, -, hrsp⟩ := h
  cases edge_effect p s t he with
  | reset => exact stateInv_applyReset s
  | idle => exact hinv
  | answered => exact stateInv_of_not_busy _ (by simp) hstep hdig hacc (responseOk_check p.cmdData)
  | started i _ _ _ _ hc => exact stateInv_start i s hinv hc
  | encStepped i _ hs ho hi h4 =>
    have hcnt := (cntFits_enc_iff s.cnt).1 (ho ▸ (hbusy hs).2)
    have hi4 : i.val ≠ 4 := fun h => h4 (Fin.ext h)
    have hnext := encStep_counted i s hi
    exact stateInv_of_enc _ ho (by omega) hcnt (digitsOk_encStep i s hdig) hacc hrsp
  | encFinished _ hs ho hi hc =>
    exact stateInv_of_not_busy _ (by simp) (encStep_counted 4 s hi).le (digitsOk_encStep 4 s hdig) hacc
      (responseOk_encWord _ _ hc.2)
  | decStepped i _ hs ho hi h4 hv =>
    have hcnt := (cntFits_dec_iff s.cnt).1 (ho ▸ (hbusy hs).2)
    have hi4 : i.val ≠ 4 := fun h => h4 (Fin.ext h)
    have hnext := accumulate_counted i s hi
    refine stateInv_of_dec _ ho (by omega) hcnt hdig ?_ hrsp
    rw [hnext]
    exact accumulate_acc_le i s hinv hs ho hi hv
  | decFinished _ hs ho hi hc hv =>
    exact stateInv_of_not_busy _ (by simp) (accumulate_counted 4 s hi).le hdig (accumulate_acc_le 4 s hinv hs ho hi hv)
      (responseOk_decWord _ _ (le_trans (by decide) hc.1) hc.2)
  | held => exact hinv
  | taken => exact stateInv_of_not_busy _ (by simp) hstep hdig hacc hrsp

/-- Settles O50: a step is an edge of the state whose pins have been taken, and each effect an edge can have keeps the
invariant. -/
theorem everyStepKeepsInv : Obligations.EveryStepKeepsInv := by
  unfold Obligations.EveryStepKeepsInv
  intro s t hs ht
  exact edge_keeps_stateInv (pinsNow s) (advance s) t ((stateInv_advance s).2 hs) ht

/-! ### How far a computing command has come -/

/-- ENC n, v after STEP micro-steps: the low digits of the masked value stand in DIG, the rest of it in Q (R84). -/
structure EncProgress (n : Count) (v : GroupWord) (s : State) : Prop where
  op  : s.op = 0
  cnt : s.cnt = n
  q   : s.q.toNat = (realBytes n v).toNat / 85 ^ s.step.toNat
  dig : ∀ j : Fin 5, 4 - j.val < s.step.toNat → s.dig.get j = digitOf (realBytes n v).toNat j

/-- DEC k, d after STEP micro-steps: ACC is the value of the first STEP effective digits (R100). -/
structure DecProgress (k : Count) (d : Digits) (s : State) : Prop where
  op  : s.op = 1
  cnt : s.cnt = k
  dig : s.dig = effectiveDigits k d
  acc : s.acc.toNat = hornerSum (effectiveDigits k d) s.step.toNat

/-- The registers of a command after STEP of its micro-steps. -/
def Progress (i : Instr) (s : State) : Prop :=
  match i with
  | .enc n v => EncProgress n v s
  | .dec k d => DecProgress k d s

/-- After the acceptance of i and m BUSY edges: BUSY until the fifth, which leaves DONE with the answer in RSP (R37). -/
structure Reached (i : Instr) (m : Nat) (s : State) : Prop where
  step     : s.step.toNat = m
  phase    : s.phase = if m = 5 then .done else .busy
  progress : Progress i s
  rsp      : m = 5 → s.rsp = computed i

theorem Reached.busy {i : Instr} {m : Nat} {s : State} (h : Reached i m s) (hm : m < 5) : s.phase = .busy := by
  rw [h.phase, if_neg (by omega)]

/-- Where a command starts, nothing of it has been done, whatever the registers held (R81, R98). -/
theorem reached_start (i : Instr) (s : State) : Reached i 0 (start i s) := by
  cases i with
  | enc n v => exact ⟨rfl, rfl, ⟨rfl, rfl, by simp [start], fun j hj => absurd hj (Nat.not_lt_zero _)⟩, nofun⟩
  | dec k d => exact ⟨rfl, rfl, ⟨rfl, rfl, rfl, by simp [start]⟩, nofun⟩

theorem encProgress_encStep {n : Count} {v : GroupWord} {s : State} (h : EncProgress n v s) (i : Fin 5)
    (hi : s.step.toNat = i.val) : EncProgress n v (countStep (encStep i s)) := by
  have hnext := encStep_counted i s hi
  have hq : s.q.toNat = (realBytes n v).toNat / 85 ^ i.val := hi ▸ h.q
  refine ⟨h.op, h.cnt, ?_, fun j hj => ?_⟩
  · have := s.q.isLt
    rw [hnext, countStep_q, encStep_q, BitVec.toNat_ofNat, Config.radix, Nat.mod_eq_of_lt (by omega), hq,
      Nat.div_div_eq_div_mul, pow_succ]
  · rw [hnext] at hj
    rw [countStep_dig, encStep_dig]
    by_cases hji : j = i.rev
    · have hexp : 4 - i.rev.val = i.val := by rw [Fin.val_rev]; omega
      rw [hji, Digits.get_set_same, hq, digitOf, hexp, Config.radix]
    · have hne : j.val ≠ i.rev.val := fun hv => hji (Fin.ext hv)
      rw [Fin.val_rev] at hne
      rw [Digits.get_set_other _ _ _ _ hji]
      exact h.dig j (by omega)

/-- The five digits of an ENC command are those of its masked value (R84). -/
theorem encProgress_dig {n : Count} {v : GroupWord} {s : State} (h : EncProgress n v s) (h5 : s.step.toNat = 5) :
    s.dig = digitsOf (realBytes n v).toNat :=
  Digits.eq_of_get fun j => by rw [h.dig j (by omega), digitsOf_get]

/-- A Horner step of DEC is exact: its value is that of one digit more, and fits ACC (R99, R100). -/
theorem hornerValue_of_decProgress {k : Count} {d : Digits} {s : State} (h : DecProgress k d s) (i : Fin 5)
    (hi : s.step.toNat = i.val) : hornerValue i s = hornerSum (effectiveDigits k d) (i.val + 1) := by
  rw [hornerValue, h.acc, h.dig, hi, hornerSum_succ, Config.radix]

theorem hornerSum_lt_acc (d : Digits) (hd : digitsOk d) (i : Fin 5) : hornerSum d (i.val + 1) < 2 ^ 33 := by
  have hle := hornerSum_le d hd (i.val + 1) (by omega)
  have hpow := pow85_le (i.val + 1) (by omega)
  omega

theorem decProgress_accumulate {k : Count} {d : Digits} {s : State} (h : DecProgress k d s) (i : Fin 5)
    (hi : s.step.toNat = i.val) (hv : hornerValue i s < 2 ^ 33) : DecProgress k d (countStep (accumulate i s)) := by
  refine ⟨h.op, h.cnt, h.dig, ?_⟩
  rw [countStep_acc, accumulate_acc, BitVec.toNat_ofNat, Nat.mod_eq_of_lt hv, hornerValue_of_decProgress h i hi,
    accumulate_counted i s hi]

/-- A BUSY edge of ENC: the fifth builds R78's response from the five digits (R83). -/
theorem busyEdge_reached_enc (n : Count) (v : GroupWord) (s : State) (i : Fin 5) (hc : 1 ≤ n.toNat ∧ n.toNat ≤ 4)
    (h : Reached (.enc n v) i.val s) : ∃ t, busyEdge s = .next t ∧ Reached (.enc n v) (i.val + 1) t := by
  have hp : EncProgress n v s := h.progress
  have hp' := encProgress_encStep hp i h.step
  have hnext := encStep_counted i s h.step
  rw [busyEdge_enc s i hp.op h.step]
  by_cases h4 : i = 4
  · rw [if_pos h4, finish_enc _ hp'.op (hp'.cnt ▸ hc)]
    subst h4
    refine ⟨_, rfl, hnext, rfl, ⟨hp'.op, hp'.cnt, hp'.q, hp'.dig⟩, fun _ => ?_⟩
    rw [encFinish_rsp, hp'.cnt, encProgress_dig hp' hnext]
    rfl
  · have hm : i.val + 1 ≠ 5 := fun hv => h4 (Fin.ext (Nat.succ.inj hv))
    rw [if_neg h4]
    exact ⟨_, rfl, hnext, (h.busy i.isLt).trans (if_neg hm).symm, hp', fun hv => absurd hv hm⟩

/-- A BUSY edge of DEC: the fifth builds R93's response from the value of the effective digits (R101). -/
theorem busyEdge_reached_dec (k : Count) (d : Digits) (s : State) (i : Fin 5) (hc : 2 ≤ k.toNat ∧ k.toNat ≤ 5)
    (hd : ∀ j : Fin 5, j.val < k.toNat → (d.get j).toNat ≤ 84) (h : Reached (.dec k d) i.val s) :
    ∃ t, busyEdge s = .next t ∧ Reached (.dec k d) (i.val + 1) t := by
  have hp : DecProgress k d s := h.progress
  have hv : hornerValue i s < 2 ^ 33 := by
    rw [hornerValue_of_decProgress hp i h.step]
    exact hornerSum_lt_acc _ (digitsOk_effectiveDigits k d hd) i
  have hp' := decProgress_accumulate hp i h.step hv
  have hnext := accumulate_counted i s h.step
  rw [busyEdge_dec s i hp.op h.step hv]
  by_cases h4 : i = 4
  · rw [if_pos h4, finish_dec _ hp'.op (hp'.cnt ▸ hc)]
    subst h4
    refine ⟨_, rfl, hnext, rfl, ⟨hp'.op, hp'.cnt, hp'.dig, hp'.acc⟩, fun _ => ?_⟩
    rw [decFinish_rsp, hp'.cnt, hp'.acc, hnext]
    exact congrArg (decWord k) (hornerSum_five _)
  · have hm : i.val + 1 ≠ 5 := fun hv => h4 (Fin.ext (Nat.succ.inj hv))
    rw [if_neg h4]
    exact ⟨_, rfl, hnext, (h.busy i.isLt).trans (if_neg hm).symm, hp', fun hv => absurd hv hm⟩

/-- An edge with `rst` = 0 takes a computing command one micro-step further, whatever else the host drives. -/
theorem edge_reached (p : Pins) (i : Instr) (m : Nat) (s : State) (hr : p.rst = false) (hi : (checkInstr i).1 = .ok)
    (hm : m < 5) (h : Reached i m s) : ∃ t, edge p s = .next t ∧ Reached i (m + 1) t := by
  rw [edge_busy p s hr (h.busy hm)]
  cases i with
  | enc n v => exact busyEdge_reached_enc n v s ⟨m, hm⟩ ((encCheck_ok_iff n).1 hi) h
  | dec k d =>
    obtain ⟨hk2, hk5, hd⟩ := (decCheck_ok_iff k d).1 hi
    exact busyEdge_reached_dec k d s ⟨m, hm⟩ ⟨hk2, hk5⟩ hd h

theorem runEdges_reached (ps : List Pins) (i : Instr) (m : Nat) (s : State) (hr : noReset ps)
    (hi : (checkInstr i).1 = .ok) (hm : m + ps.length ≤ 5) (h : Reached i m s) :
    ∃ t, runEdges ps s = .next t ∧ Reached i (m + ps.length) t := by
  induction ps generalizing m s with
  | nil => exact ⟨s, rfl, h⟩
  | cons p ps ih =>
    rw [noReset, List.forall_mem_cons] at hr
    rw [List.length_cons] at hm ⊢
    obtain ⟨u, hu, hReached⟩ := edge_reached p i m s hr.1 hi (by omega) h
    obtain ⟨t, ht, hReached'⟩ := ih (m + 1) u hr.2 (by omega) hReached
    refine ⟨t, (runEdges_cons_next p ps s u hu).trans ht, ?_⟩
    rwa [Nat.add_assoc, Nat.add_comm 1] at hReached'

/-- From the acceptance of a word that passes its check, n ≤ 5 more edges reach its n-th micro-step. -/
theorem runEdges_accepted (p : Pins) (ps : List Pins) (s : State) (i : Instr) (hp : cmdTransfers p s = true)
    (hr : noReset ps) (hd : decode p.cmdData = .ok i) (hi : (checkInstr i).1 = .ok) (hl : ps.length ≤ 5) :
    ∃ t, runEdges (p :: ps) s = .next t ∧ Reached i ps.length t := by
  have he : edge p s = .next (start i s) := (edge_of_cmdTransfers p s hp).trans (accept_of_ok _ s i hd hi)
  obtain ⟨t, ht, hReached⟩ := runEdges_reached ps i 0 (start i s) hr hi (by omega) (reached_start i s)
  rw [Nat.zero_add] at hReached
  exact ⟨t, (runEdges_cons_next p ps s _ he).trans ht, hReached⟩

/-! ### What a state owes the host -/

/-- The accepted commands, oldest first, that a state has still to answer: none in IDLE, the one it works on in BUSY, the one
whose RESULT stands in RSP in DONE. -/
inductive Owes : List Word64 → State → Prop where
  | nothing {s : State} (hs : s.phase = .idle) : Owes [] s
  | working {s : State} (c : Word64) (i : Instr) (m : Nat) (hd : decode c = .ok i) (hi : (checkInstr i).1 = .ok) (hm : m < 5)
      (h : Reached i m s) : Owes [c] s
  | answered {s : State} (c : Word64) (hs : s.phase = .done) (hr : s.rsp = result c) : Owes [c] s

/-- One edge of `unanswered`: what is owed after it when `owed` was owed before it. -/
def owedAfter (owed : List Word64) (p : Pins) (s : State) : List Word64 :=
  if p.rst then []
  else (if rspTransfers p s then owed.drop 1 else owed) ++ (if cmdTransfers p s then [p.cmdData] else [])

theorem unanswered_cons_owedAfter (owed : List Word64) (p : Pins) (ps : List Pins) (s t : State) (h : edge p s = .next t) :
    unanswered owed (p :: ps) s = unanswered (owedAfter owed p s) ps t :=
  unanswered_cons_next owed p ps s t h

theorem rspTransfers_eq_false (p : Pins) (s : State) (h : s.phase ≠ .done) : rspTransfers p s = false :=
  Bool.eq_false_iff.2 fun ht => h ((rspTransfers_iff p s).1 ht).2.2

theorem cmdTransfers_eq_false (p : Pins) (s : State) (h : s.phase ≠ .idle) : cmdTransfers p s = false :=
  Bool.eq_false_iff.2 fun ht => h ((cmdTransfers_iff p s).1 ht).2.2

theorem owedAfter_reset (owed : List Word64) (p : Pins) (s : State) (h : p.rst = true) : owedAfter owed p s = [] := by
  simp [owedAfter, h]

theorem owedAfter_idle (p : Pins) (s : State) (hr : p.rst = false) (hs : s.phase = .idle) :
    owedAfter [] p s = if p.cmdValid then [p.cmdData] else [] := by
  simp [owedAfter, cmdTransfers, cmdReady, hr, hs]

theorem owedAfter_busy (owed : List Word64) (p : Pins) (s : State) (hr : p.rst = false) (hs : s.phase = .busy) :
    owedAfter owed p s = owed := by
  simp [owedAfter, hr, rspTransfers_eq_false p s (by simp [hs]), cmdTransfers_eq_false p s (by simp [hs])]

theorem owedAfter_done (owed : List Word64) (p : Pins) (s : State) (hr : p.rst = false) (hs : s.phase = .done) :
    owedAfter owed p s = if p.rspReady then owed.drop 1 else owed := by
  simp [owedAfter, rspTransfers, rspValid, hr, hs, cmdTransfers_eq_false p s (by simp [hs])]

/-- Accepting a word makes the block owe that word: it starts, or it stands answered with RESULT (R39). -/
theorem accept_owes (c : Word64) (s : State) : ∃ t, accept c s = .next t ∧ Owes [c] t := by
  by_cases hc : (check c).1 = .ok
  · obtain ⟨i, hd, hi⟩ := check_ok_decodes c hc
    exact ⟨start i s, accept_of_ok c s i hd hi, .working c i 0 hd hi (by decide) (reached_start i s)⟩
  · exact ⟨_, accept_of_error c s hc, .answered c rfl (result_of_error c hc).symm⟩

/-- Every edge answers a next state and settles the account, a reset edge too: the invariant of the refinement. -/
theorem edge_owes (p : Pins) (owed : List Word64) (s : State) (h : Owes owed s) :
    ∃ t, edge p s = .next t ∧ Owes (owedAfter owed p s) t := by
  cases hr : p.rst with
  | true =>
    rw [owedAfter_reset owed p s hr]
    exact ⟨_, edge_reset p s hr, .nothing rfl⟩
  | false =>
    cases h with
    | nothing hs =>
      rw [owedAfter_idle p s hr hs]
      cases hv : p.cmdValid with
      | false => exact ⟨s, edge_idle_quiet p s hr hs hv, .nothing hs⟩
      | true =>
        rw [edge_idle_command p s hr hs hv]
        exact accept_owes p.cmdData s
    | working c i m hd hi hm h =>
      rw [owedAfter_busy [c] p s hr (h.busy hm)]
      obtain ⟨t, ht, hReached⟩ := edge_reached p i m s hr hi hm h
      refine ⟨t, ht, ?_⟩
      by_cases h5 : m + 1 = 5
      · exact .answered c (hReached.phase.trans (if_pos h5)) ((hReached.rsp h5).trans (result_of_ok c i hd hi).symm)
      · exact .working c i (m + 1) hd hi (by omega) hReached
    | answered c hs hw =>
      rw [owedAfter_done [c] p s hr hs]
      cases hq : p.rspReady with
      | false => exact ⟨s, edge_done_held p s hr hs hq, .answered c hs hw⟩
      | true => exact ⟨_, edge_done_taken p s hr hs hq, .nothing rfl⟩

theorem runEdges_owes (ps : List Pins) (owed : List Word64) (s : State) (h : Owes owed s) :
    ∃ t, runEdges ps s = .next t ∧ Owes (unanswered owed ps s) t := by
  induction ps generalizing owed s with
  | nil => exact ⟨s, rfl, h⟩
  | cons p ps ih =>
    obtain ⟨u, hu, hOwes⟩ := edge_owes p owed s h
    rw [runEdges_cons_next p ps s u hu, unanswered_cons_owedAfter owed p ps s u hu]
    exact ih _ u hOwes

/-- At most one accepted command is unanswered at a time (R40). -/
theorem Owes.length_le {owed : List Word64} {s : State} (h : Owes owed s) : owed.length ≤ 1 := by
  cases h <;> simp

theorem Owes.eq_nil_of_idle {owed : List Word64} {s : State} (h : Owes owed s) (hs : s.phase = .idle) : owed = [] := by
  cases h with
  | nothing => rfl
  | working c i m _ _ hm h => rw [h.busy hm] at hs; cases hs
  | answered c hd => rw [hd] at hs; cases hs

/-! ### The balance of a run -/

/-- At an edge without a reset, what transfers to the host and what is owed after it are together what was owed before it and
what was accepted at it. -/
theorem edge_balance (p : Pins) (owed : List Word64) (s : State) (hr : p.rst = false) (h : Owes owed s) :
    (if rspTransfers p s then [rspData s] else []) ++ (owedAfter owed p s).map result
      = (owed ++ if cmdTransfers p s then [p.cmdData] else []).map result := by
  rw [owedAfter, hr, if_neg Bool.false_ne_true]
  by_cases ht : rspTransfers p s = true
  · have hs := ((rspTransfers_iff p s).1 ht).2.2
    cases h with
    | nothing hs' => rw [hs] at hs'; cases hs'
    | working c i m _ _ hm h => rw [h.busy hm] at hs; cases hs
    | answered c _ hw => simp [ht, rspData, hw]
  · simp [ht]

/-- Over any edges without a reset, the responses that transferred and RESULT of the commands still unanswered are together
RESULT of the commands owed before and those accepted, in the order of acceptance (R40). -/
theorem responses_balance (ps : List Pins) (owed : List Word64) (s : State) (hr : noReset ps) (h : Owes owed s) :
    responses ps s ++ (unanswered owed ps s).map result = (owed ++ accepted ps s).map result := by
  induction ps generalizing owed s with
  | nil => simp [responses, unanswered, accepted]
  | cons p ps ih =>
    rw [noReset, List.forall_mem_cons] at hr
    obtain ⟨t, ht, hOwes⟩ := edge_owes p owed s h
    rw [responses_cons_next p ps s t ht, unanswered_cons_owedAfter owed p ps s t ht, accepted_cons_next p ps s t ht,
      List.append_assoc, ih _ t hr.2 hOwes, List.map_append, ← List.append_assoc, edge_balance p owed s hr.1 h,
      ← List.map_append, List.append_assoc]

/-- Settles O53: the balance of a run from IDLE, where nothing is owed at first and at most one command at the end. -/
theorem responsesInOrderOneForEach : Obligations.ResponsesInOrderOneForEach := by
  unfold Obligations.ResponsesInOrderOneForEach
  intro ps s hs hr
  have hbal := responses_balance ps [] s hr (.nothing hs)
  obtain ⟨t, -, hOwes⟩ := runEdges_owes ps [] s (.nothing hs)
  rw [List.nil_append] at hbal
  refine ⟨⟨_, hbal⟩, ?_⟩
  have hlen := congrArg List.length hbal
  have hone := hOwes.length_le
  simp only [List.length_append, List.length_map] at hlen
  omega

/-- A run from IDLE that ends in IDLE owes nothing, resets among its edges or not (R130, R143). -/
theorem unanswered_eq_nil_of_idle (ps : List Pins) (s t : State) (hs : s.phase = .idle) (ht : runEdges ps s = .next t)
    (hi : t.phase = .idle) : unanswered [] ps s = [] := by
  obtain ⟨u, hu, hOwes⟩ := runEdges_owes ps [] s (.nothing hs)
  rw [ht] at hu
  cases hu
  exact hOwes.eq_nil_of_idle hi

/-- Settles O52: an error is answered at the accepting edge; a computing command by its five micro-steps; and a run from IDLE
that ends in IDLE owes nothing, so that without a reset its responses are RESULT of its commands. -/
theorem acceptedCommandGetsItsResult : Obligations.AcceptedCommandGetsItsResult := by
  unfold Obligations.AcceptedCommandGetsItsResult
  refine ⟨fun p ps s hp hr => ⟨fun hc => ?_, fun hc hl => ?_, fun hc hl => ?_⟩, fun cs ps rst s t hs ht => ?_,
    fun cs ps rst s hs hr hend => ?_⟩
  · exact ⟨_, (edge_of_cmdTransfers p s hp).trans (accept_of_error _ s hc), rfl, (result_of_error _ hc).symm⟩
  · obtain ⟨i, hd, hi⟩ := check_ok_decodes _ hc
    obtain ⟨t, ht, hReached⟩ := runEdges_accepted p ps s i hp hr hd hi (by omega)
    exact ⟨t, ht, hReached.phase.trans (if_pos hl), (hReached.rsp hl).trans (result_of_ok _ i hd hi).symm⟩
  · obtain ⟨i, hd, hi⟩ := check_ok_decodes _ hc
    obtain ⟨t, ht, hReached⟩ := runEdges_accepted p ps s i hp hr hd hi (by omega)
    exact ⟨t, ht, hReached.busy hl⟩
  · constructor
    · rintro ⟨hacc, hoff, -, u, hu, hq, hrst⟩
      rw [ht] at hu
      cases hu
      exact ⟨hacc, hoff, hq, hrst⟩
    · rintro ⟨hacc, hoff, hq, hrst⟩
      exact ⟨hacc, hoff, unanswered_eq_nil_of_idle ps s t hs ht hq, t, ht, hq, hrst⟩
  · obtain ⟨hacc, -, hun, -⟩ := hend
    have hbal := responses_balance ps [] s hr (.nothing hs)
    rwa [hun, hacc, List.map_nil, List.append_nil, List.nil_append] at hbal

end Sys2Proof.Machine
end

section
/-! PROOFS. Family 20_memory, one group: what the wrapper makes of the answer to one ENC and to one DEC command.
A group's digits are the first places of its masked value; padded with 84 they stand for the last number with these places,
which agrees with the masked value on the group's bytes (`padded_value_of_encoded`), so that a group round-trips. -/

namespace Sys2Proof.Machine

/-! ### RESULT of the word of a command (R39) -/

/-- The decoder reads a command's own word back (R71, R75). -/
theorem decode_encode (i : Instr) : decode (encode i) = .ok i := by
  cases i with
  | enc n v => rw [decode_of_matches_enc _ (Laws.MatchesOwnRow.enc n v).1, cmdCnt_encode_enc, cmdDataField_encode_enc]
  | dec k d => rw [decode_of_matches_dec _ (Laws.MatchesOwnRow.dec k d).1, cmdCnt_encode_dec, digitFields_encode_dec]

theorem result_encode_of_ok (i : Instr) (h : (checkInstr i).1 = .ok) : result (encode i) = computed i :=
  result_of_ok _ i (decode_encode i) h

theorem result_encode_of_error (i : Instr) (st : Status) (p : Count) (h : checkInstr i = (st, p)) (hst : st ≠ .ok) :
    result (encode i) = errorWord st p := by
  have hc : check (encode i) = (st, p) := (check_of_decode _ i (decode_encode i)).trans h
  rw [result_of_error _ (by rwa [hc]), hc]

theorem result_encode_enc (n : Count) (v : GroupWord) (h : 1 ≤ n.toNat ∧ n.toNat ≤ 4) :
    result (encode (.enc n v)) = encResult n v :=
  result_encode_of_ok (.enc n v) ((encCheck_ok_iff n).2 h)

/-! ### Masked values and padded values (R12, R80, R98) -/

/-- What the mask keeps of a group, as a number: the multiple of 256^(4−n) below it, the full group included. -/
theorem realBytes_toNat (n : Count) (v : GroupWord) (h : 1 ≤ n.toNat ∧ n.toNat ≤ 4) :
    (realBytes n v).toNat = v.toNat / 256 ^ (4 - n.toNat) * 256 ^ (4 - n.toNat) := by
  obtain ⟨h1, h4⟩ := h
  have hpow : 256 ^ (4 - n.toNat) = 2 ^ (32 - 8 * n.toNat) := by
    rw [show (256 : Nat) = 2 ^ 8 from rfl, ← pow_mul]
    congr 1
    omega
  rw [realBytes, hpow]
  by_cases h3 : n.toNat ≤ 3
  · exact masked_toNat v n.toNat h1 h3
  · rw [show n.toNat = 4 by omega, byteMask_four, BitVec.and_allOnes]
    simp

/-- The first m base-85 digits of a five-digit value are what is left of it above the other places (R84). -/
theorem hornerSum_digitsOf (x m : Nat) (hx : x < 85 ^ 5) (hm : m ≤ 5) :
    hornerSum (digitsOf x) m = x / 85 ^ (5 - m) := by
  induction m with
  | zero => rw [hornerSum_zero, Nat.div_eq_of_lt hx]
  | succ m ih =>
    have hsplit : 5 - m = 4 - m + 1 := by omega
    have hsum := hornerSum_succ (digitsOf x) ⟨m, hm⟩
    rw [digitsOf_get, digitOf_toNat, ih (by omega), hsplit, pow_succ, ← Nat.div_div_eq_div_mul,
      Nat.div_add_mod'] at hsum
    rw [hsum, show 5 - (m + 1) = 4 - m by omega]

/-- The input digits of a padded vector are its own (R98). -/
theorem hornerSum_effectiveDigits_of_le (k : Count) (d e : Digits) (m : Nat) (hm : m ≤ k.toNat)
    (h : ∀ i : Fin 5, i.val < k.toNat → d.get i = e.get i) : hornerSum (effectiveDigits k d) m = hornerSum e m := by
  refine Finset.sum_congr rfl fun j _ => ?_
  split
  · next hj => rw [effectiveDigits_get, if_pos (by omega), h j (by omega)]
  · rfl

/-- Padding with 84, the largest digit, gives the last value that begins with the input digits (R98, R107). -/
theorem hornerSum_effectiveDigits_of_ge (k : Count) (d : Digits) (m : Nat) (hkm : k.toNat ≤ m) (hm : m ≤ 5) :
    hornerSum (effectiveDigits k d) m + 1 = (hornerSum (effectiveDigits k d) k.toNat + 1) * 85 ^ (m - k.toNat) := by
  induction m, hkm using Nat.le_induction with
  | base => simp
  | succ m hkm ih =>
    have hpad : ((effectiveDigits k d).get ⟨m, hm⟩).toNat = 84 := by
      rw [effectiveDigits_get, if_neg (by simpa using hkm)]
      rfl
    have hsum := hornerSum_succ (effectiveDigits k d) ⟨m, hm⟩
    rw [hpad] at hsum
    rw [hsum, Nat.succ_sub hkm, pow_succ, ← mul_assoc, ← ih (by omega)]
    ring

/-- Digits that begin with the first k digits of x are padded to the last number that shares them (R98, R105). -/
theorem val_effectiveDigits_of_leading (k : Count) (d : Digits) (x : Nat) (hx : x < 85 ^ 5) (hk : k.toNat ≤ 5)
    (h : ∀ i : Fin 5, i.val < k.toNat → d.get i = digitOf x i) :
    (effectiveDigits k d).val + 1 = (x / 85 ^ (5 - k.toNat) + 1) * 85 ^ (5 - k.toNat) := by
  have hpre : hornerSum (effectiveDigits k d) k.toNat = x / 85 ^ (5 - k.toNat) := by
    rw [hornerSum_effectiveDigits_of_le k d (digitsOf x) _ le_rfl fun i hi => by rw [h i hi, digitsOf_get],
      hornerSum_digitsOf x _ hx hk]
  rw [← hornerSum_five, hornerSum_effectiveDigits_of_ge k d 5 hk le_rfl, hpre]

/-- Rounding up within a base-85 place does not leave a base-256 place, the smaller of the two ranges being 85's (R105,
R106). -/
theorem padded_div (x V m : Nat) (hV : V + 1 = (x / 85 ^ m + 1) * 85 ^ m) (hx : 256 ^ m ∣ x) :
    V / 256 ^ m = x / 256 ^ m := by
  obtain ⟨y, rfl⟩ := hx
  have hpos : 0 < 85 ^ m := Nat.pow_pos (by decide)
  have hle : 85 ^ m ≤ 256 ^ m := Nat.pow_le_pow_left (by decide) m
  have hdm := Nat.div_add_mod' (256 ^ m * y) (85 ^ m)
  have hlt := Nat.mod_lt (256 ^ m * y) hpos
  rw [add_mul, one_mul] at hV
  rw [Nat.mul_div_cancel_left y (Nat.pow_pos (by decide))]
  exact Nat.div_eq_of_lt_le (by rw [mul_comm]; omega) (by rw [add_mul, mul_comm y]; omega)

/-- The padded digits of an encoded group stand for a value that fits, whose first n bytes are the group's (R104 to R106). -/
theorem padded_value_of_encoded (n : Count) (v : GroupWord) (d : Digits) (hn : 1 ≤ n.toNat ∧ n.toNat ≤ 4)
    (h : ∀ i : Fin 5, i.val < n.toNat + 1 → d.get i = digitOf (realBytes n v).toNat i) :
    (effectiveDigits (n + 1) d).val ≤ 2 ^ 32 - 1
      ∧ realBytes n (BitVec.ofNat 32 (effectiveDigits (n + 1) d).val) = realBytes n v := by
  have hk : (n + 1).toNat = n.toNat + 1 := count_succ_toNat n (by omega)
  have hx := realBytes_toNat n v hn
  have hv := v.isLt
  set m := 4 - n.toNat with hm
  set V := (effectiveDigits (n + 1) d).val
  have hV : V + 1 = ((realBytes n v).toNat / 85 ^ m + 1) * 85 ^ m := by
    have := val_effectiveDigits_of_leading (n + 1) d (realBytes n v).toNat (by omega) (by omega) (by rwa [hk])
    rwa [hk, show 5 - (n.toNat + 1) = m by omega] at this
  have hdiv : V / 256 ^ m = v.toNat / 256 ^ m := by
    rw [padded_div _ V m hV ⟨_, hx.trans (mul_comm _ _)⟩, hx, Nat.mul_div_cancel _ (Nat.pow_pos (by decide))]
  have hfit : V < 2 ^ 32 := by
    have hmul : 256 ^ m * 256 ^ n.toNat = 2 ^ 32 := by
      rw [← pow_add, show m + n.toNat = 4 by omega]
      rfl
    have hvlt : v.toNat / 256 ^ m < 256 ^ n.toNat := Nat.div_lt_of_lt_mul (by rwa [hmul])
    rw [← hdiv] at hvlt
    rw [← hmul, mul_comm]
    exact (Nat.div_lt_iff_lt_mul (Nat.pow_pos (by decide))).1 hvlt
  refine ⟨by omega, BitVec.eq_of_toNat_eq ?_⟩
  rw [realBytes_toNat n _ hn, realBytes_toNat n v hn, BitVec.toNat_ofNat, Nat.mod_eq_of_lt hfit, ← hm, hdiv]

/-! ### Digits and bytes as lists (R43, R44, R52, R76) -/

/-- The five places in order, as the wrapper sends and reads them (R52). -/
def placeList (d : Digits) : List Digit := List.ofFn d.get

@[simp] theorem placeList_length (d : Digits) : (placeList d).length = 5 := List.length_ofFn

theorem validDigits_eq_take (r : Word64) : validDigits r = (placeList (digitFields r)).take (rspOcnt r).toNat := rfl

theorem placeList_getD (d : Digits) (i : Fin 5) (x : Digit) : (placeList d).getD i.val x = d.get i := by
  rw [placeList, List.getD_eq_getElem _ _ (by simp), List.getElem_ofFn]

theorem issueDigits_get (ds : List Digit) (i : Fin 5) : (issueDigits ds).get i = ds.getD i.val 0 := by
  fin_cases i <;> rfl

/-- A response transmits the places up to n unchanged (R83). -/
theorem placeList_keptDigits_take (n : Count) (d : Digits) :
    (placeList (keptDigits n d)).take (n.toNat + 1) = (placeList d).take (n.toNat + 1) := by
  refine List.ext_getElem (by simp) fun i hi _ => ?_
  simp only [List.length_take, placeList_length] at hi
  simp only [placeList, List.getElem_take, List.getElem_ofFn, keptDigits_get]
  exact if_pos (by omega)

theorem count_ofNat_toNat (m : Nat) (h : m ≤ 7) : (BitVec.ofNat 3 m).toNat = m := by
  rw [BitVec.toNat_ofNat]
  omega

theorem dataBytes_append (a b c d : Byte) : dataBytes (a ++ b ++ c ++ d) = [a, b, c, d] := by
  simp only [dataBytes, List.cons.injEq, and_true]
  refine ⟨?_, ?_, ?_, ?_⟩ <;> (apply BitVec.eq_of_getLsbD_eq; intro i hi; simp; grind)

/-- The bytes of a group stand first in its data field, whatever `fill` puts after them (R43, R52). -/
theorem dataBytes_packBytes_take (fill : GroupWord) (bs : List Byte) (h : bs.length ≤ 4) :
    (dataBytes (packBytes fill bs)).take bs.length = bs := by
  rw [packBytes, dataBytes_append]
  match bs, h with
  | [], _ | [_], _ | [_, _], _ | [_, _, _], _ | [_, _, _, _], _ => rfl

/-- Masking the bytes after the first n keeps the first n (R12, R43). -/
theorem dataBytes_realBytes_take (n : Count) (v : GroupWord) (h : 1 ≤ n.toNat ∧ n.toNat ≤ 4) :
    (dataBytes (realBytes n v)).take n.toNat = (dataBytes v).take n.toNat := by
  have hbyte : ∀ hi lo : Nat, lo ≤ hi → hi < 32 → 32 - 8 * n.toNat ≤ lo →
      (realBytes n v).extractLsb hi lo = v.extractLsb hi lo := fun hi lo hle hlt hlo => by
    apply BitVec.eq_of_getLsbD_eq
    intro i hi'
    have hmask : (byteMask n.toNat).getLsbD (lo + i) = true := by
      rw [byteMask_getLsbD n.toNat (lo + i) h.1 h.2 (by omega), decide_eq_true_iff]
      omega
    simp [realBytes, hmask]
  obtain ⟨h1, h4⟩ := h
  generalize n.toNat = m at *
  interval_cases m <;> simp [dataBytes, hbyte]

/-! ### One ENC command as the wrapper sees it (R52, R87) -/

/-- A group of n bytes gives the first n + 1 digits of its masked value (R52, R84, R87). -/
theorem encodeGroup_eq (fill : GroupWord) (bs : List Byte) (h : 1 ≤ bs.length ∧ bs.length ≤ 4) :
    encodeGroup fill bs =
      (placeList (digitsOf (realBytes (BitVec.ofNat 3 bs.length) (packBytes fill bs)).toNat)).take (bs.length + 1) := by
  have hn := count_ofNat_toNat bs.length (by omega)
  have hocnt := count_succ_toNat (BitVec.ofNat 3 bs.length) (by omega)
  rw [encodeGroup, result_encode_enc _ _ (by rwa [hn]), encResult, encWord, validDigits_eq_take, rspOcnt_respond,
    digitFields_respond, hocnt, placeList_keptDigits_take, hn]

theorem encodeGroup_length (fill : GroupWord) (bs : List Byte) (h : 1 ≤ bs.length ∧ bs.length ≤ 4) :
    (encodeGroup fill bs).length = bs.length + 1 := by
  rw [encodeGroup_eq fill bs h, List.length_take, placeList_length]
  omega

theorem encodeGroup_getD (fill : GroupWord) (bs : List Byte) (h : 1 ≤ bs.length ∧ bs.length ≤ 4) (i : Fin 5)
    (hi : i.val < bs.length + 1) :
    (encodeGroup fill bs).getD i.val 0
      = digitOf (realBytes (BitVec.ofNat 3 bs.length) (packBytes fill bs)).toNat i := by
  rw [encodeGroup_eq fill bs h, ← digitsOf_get, ← placeList_getD _ i 0]
  simp [List.getD, hi]

/-- The encoder's digits are digits (R85). -/
theorem encodeGroup_le (fill : GroupWord) (bs : List Byte) (h : 1 ≤ bs.length ∧ bs.length ≤ 4) (d : Digit)
    (hd : d ∈ encodeGroup fill bs) : d.toNat ≤ 84 := by
  rw [encodeGroup_eq fill bs h] at hd
  obtain ⟨i, rfl⟩ := List.mem_ofFn.1 (List.mem_of_mem_take hd)
  exact digitsOf_get_le _ i

/-! ### One DEC command as the wrapper sees it (R54, R57) -/

theorem result_encode_dec_of_ok (k : Count) (d : Digits) (h : (decCheck k d).1 = .ok) :
    result (encode (.dec k d)) = decResult k d :=
  result_encode_of_ok (.dec k d) h

theorem result_encode_dec_of_error (k : Count) (d : Digits) (st : Status) (p : Count) (h : decCheck k d = (st, p))
    (hst : st ≠ .ok) : result (encode (.dec k d)) = errorWord st p :=
  result_encode_of_error (.dec k d) st p h hst

theorem ofCode_code (s : Status) : Status.ofCode s.code = some s := by cases s <;> rfl

theorem readResponse_invalidDigit (T c : Nat) (p : Count) :
    readResponse T c (errorWord .invalidDigit p) = .error (.invalidCharacter (5 * c + p.toNat)) := by
  simp only [readResponse, errorWord, rspStatus_respond, ofCode_code, rspEpos_respond]

theorem readResponse_truncated (T c : Nat) (p : Count) :
    readResponse T c (errorWord .truncated p) = .error (.truncatedInput T) := by
  simp only [readResponse, errorWord, rspStatus_respond, ofCode_code]

theorem readResponse_overflow (T c : Nat) (p : Count) : readResponse T c (errorWord .overflow p) = .error (.overflow c) := by
  simp only [readResponse, errorWord, rspStatus_respond, ofCode_code]

theorem readResponse_ok (T c : Nat) (oc ep : Count) (v : GroupWord) :
    readResponse T c (respond .ok oc ep (v.setWidth 35)) = .ok ((dataBytes v).take oc.toNat) := by
  simp only [readResponse, rspStatus_respond, ofCode_code, validBytes, rspDataField_respond, rspOcnt_respond]

/-- The answer to a computed value: Overflow, or its first k − 1 bytes (R54, R57, R101). -/
theorem readResponse_decWord (T c : Nat) (k : Count) (value : Nat) (hk : 2 ≤ k.toNat ∧ k.toNat ≤ 5) :
    readResponse T c (decWord k value) =
      if 2 ^ 32 - 1 < value then .error (.overflow c)
      else .ok ((dataBytes (BitVec.ofNat 32 value)).take (k.toNat - 1)) := by
  by_cases hv : Config.vMax < value
  · rw [decWord, if_pos hv, readResponse_overflow]
    exact (if_pos hv).symm
  · have hpred := count_pred_toNat k (by omega)
    rw [decWord, if_neg hv, ← hpred, ← realBytes, readResponse_ok, dataBytes_realBytes_take _ _ (by omega)]
    exact (if_neg hv).symm

/-- V of a chunk: the value of its digits padded with 84 (R54, R98). -/
def chunkValue (ds : List Digit) : Nat := (effectiveDigits (BitVec.ofNat 3 ds.length) (issueDigits ds)).val

/-- A chunk that passes the checks of DEC, for k = 1 too: its digits are all digits (R96). -/
theorem firstInvalid_issueDigits_none_iff (ds : List Digit) (h : ds.length ≤ 5) :
    firstInvalid (BitVec.ofNat 3 ds.length) (issueDigits ds) = none ↔ ∀ d ∈ ds, d.toNat ≤ 84 := by
  rw [firstInvalid_none_iff, count_ofNat_toNat _ (by omega)]
  constructor
  · intro hall d hd
    obtain ⟨i, hi, rfl⟩ := List.getElem_of_mem hd
    simpa [issueDigits_get, hi] using hall ⟨i, by omega⟩ hi
  · intro hall i hi
    rw [issueDigits_get, List.getD_eq_getElem _ _ hi]
    exact hall _ (List.getElem_mem hi)

theorem decodeChunk_of_invalid (T c : Nat) (ds : List Digit) (h : 1 ≤ ds.length ∧ ds.length ≤ 5) (i : Fin 5)
    (hi : firstInvalid (BitVec.ofNat 3 ds.length) (issueDigits ds) = some i) :
    decodeChunk T c ds = .error (.invalidCharacter (5 * c + i.val)) := by
  have hcheck := decCheck_of_invalid _ _ i (by rwa [count_ofNat_toNat _ (by omega)]) hi
  rw [decodeChunk, result_encode_dec_of_error _ _ _ _ hcheck (by decide), readResponse_invalidDigit,
    count_ofNat_toNat _ (by omega)]

theorem decodeChunk_of_single (T c : Nat) (d : Digit) (hd : d.toNat ≤ 84) :
    decodeChunk T c [d] = .error (.truncatedInput T) := by
  have hvalid := (firstInvalid_issueDigits_none_iff [d] (by simp)).2 (by simpa using hd)
  have hcheck : decCheck 1 (issueDigits [d]) = (.truncated, 0) := decCheck_of_valid 1 _ (by decide) hvalid
  exact (congrArg _ (result_encode_dec_of_error 1 _ _ _ hcheck (by decide))).trans (readResponse_truncated T c 0)

/-- A chunk of at least two digits, all valid, is answered from its padded value (R54, R101, R102). -/
theorem decodeChunk_of_valid (T c : Nat) (ds : List Digit) (h : 2 ≤ ds.length ∧ ds.length ≤ 5)
    (hds : ∀ d ∈ ds, d.toNat ≤ 84) :
    decodeChunk T c ds =
      if 2 ^ 32 - 1 < chunkValue ds then .error (.overflow c)
      else .ok ((dataBytes (BitVec.ofNat 32 (chunkValue ds))).take (ds.length - 1)) := by
  have hk := count_ofNat_toNat ds.length (by omega)
  have hvalid := (firstInvalid_none_iff _ _).1 ((firstInvalid_issueDigits_none_iff ds h.2).2 hds)
  have hcheck := (decCheck_ok_iff _ _).2 ⟨by rw [hk]; exact h.1, by rw [hk]; exact h.2, hvalid⟩
  rw [decodeChunk, result_encode_dec_of_ok _ _ hcheck, decResult, readResponse_decWord T c _ _ (by rwa [hk]), hk]
  rfl

/-- The round trip of one group: its digits are a chunk that decodes to its bytes (R104, R105). -/
theorem decodeChunk_encodeGroup (T c : Nat) (fill : GroupWord) (bs : List Byte) (h : 1 ≤ bs.length ∧ bs.length ≤ 4) :
    decodeChunk T c (encodeGroup fill bs) = .ok bs := by
  have hlen := encodeGroup_length fill bs h
  have hn := count_ofNat_toNat bs.length (by omega)
  have hcount : BitVec.ofNat 3 (bs.length + 1) = BitVec.ofNat 3 bs.length + 1 := BitVec.ofNat_add _ _
  obtain ⟨hfit, hbytes⟩ := padded_value_of_encoded (BitVec.ofNat 3 bs.length) (packBytes fill bs)
    (issueDigits (encodeGroup fill bs)) (by rwa [hn]) fun i hi => by
      rw [issueDigits_get, encodeGroup_getD fill bs h i (by rwa [hn] at hi)]
  rw [← hcount, ← hlen, ← chunkValue] at hfit hbytes
  have hfirst := dataBytes_realBytes_take (BitVec.ofNat 3 bs.length) (BitVec.ofNat 32 (chunkValue (encodeGroup fill bs)))
    (by rwa [hn])
  rw [hbytes, dataBytes_realBytes_take _ _ (by rwa [hn]), hn, dataBytes_packBytes_take fill bs h.2] at hfirst
  rw [decodeChunk_of_valid T c _ (by omega) (encodeGroup_le fill bs h), if_neg (by omega), hlen, Nat.add_sub_cancel,
    ← hfirst]

end Sys2Proof.Machine
end

section
/-! PROOFS. Family 20_memory, buffers and texts: every claim by an induction over the groups or the chunks (`chunk_induction`). -/

namespace Sys2Proof.Machine

/-! ### Buffers as chunks (R52, R54) -/

/-- What holds of the empty list, and of a list when it holds of what follows its first n items, holds of every list. -/
theorem chunk_induction {α : Type} {P : List α → Prop} (n : Nat) (hn : 0 < n) (nil : P [])
    (chunk : ∀ l : List α, l ≠ [] → P (l.drop n) → P l) (l : List α) : P l := by
  by_cases hl : l = []
  · rwa [hl]
  · exact chunk l hl (chunk_induction n hn nil chunk (l.drop n))
  termination_by l.length
  decreasing_by
    have := List.length_pos_of_ne_nil hl
    rw [List.length_drop]
    omega

@[simp] theorem encodeBuffer_nil (fill : GroupWord) : encodeBuffer fill [] = [] := by rw [encodeBuffer]

@[simp] theorem decodeChunks_nil (T c : Nat) : decodeChunks T c [] = .ok [] := by rw [decodeChunks]

/-- A buffer is encoded group by group, the tail being the last group (R52). -/
theorem encodeBuffer_chunk (fill : GroupWord) (bs : List Byte) (h : bs ≠ []) :
    encodeBuffer fill bs = encodeGroup fill (bs.take 4) ++ encodeBuffer fill (bs.drop 4) := by
  match bs, h with
  | [_], _ | [_, _], _ | [_, _, _], _ => simp [encodeBuffer]
  | _ :: _ :: _ :: _ :: _, _ => simp [encodeBuffer]

theorem joinBytes_ok_nil (x : Except DecodeTextError (List Byte)) : joinBytes x (.ok []) = x := by
  cases x <;> simp [joinBytes]

/-- A text is decoded chunk by chunk, the tail being the last chunk (R54). -/
theorem decodeChunks_chunk (T c : Nat) (ds : List Digit) (h : ds ≠ []) :
    decodeChunks T c ds = joinBytes (decodeChunk T c (ds.take 5)) (decodeChunks T (c + 1) (ds.drop 5)) := by
  match ds, h with
  | [_], _ | [_, _], _ | [_, _, _], _ | [_, _, _, _], _ => simp [decodeChunks, joinBytes_ok_nil]
  | _ :: _ :: _ :: _ :: _ :: _, _ => simp [decodeChunks]

theorem length_take_chunk {α : Type} (l : List α) (n : Nat) (h : l ≠ []) (hn : 0 < n) :
    1 ≤ (l.take n).length ∧ (l.take n).length ≤ n := by
  have := List.length_pos_of_ne_nil h
  rw [List.length_take]
  omega

/-! ### The length laws (R53, R55) -/

theorem encodeBuffer_length (fill : GroupWord) (bs : List Byte) :
    (encodeBuffer fill bs).length = 5 * (bs.length / 4) + (if bs.length % 4 = 0 then 0 else bs.length % 4 + 1) := by
  induction bs using chunk_induction 4 (by decide) with
  | nil => simp
  | chunk bs hbs ih =>
    have hpos := List.length_pos_of_ne_nil hbs
    rw [encodeBuffer_chunk fill bs hbs, List.length_append,
      encodeGroup_length fill _ (length_take_chunk bs 4 hbs (by decide)), ih, List.length_take, List.length_drop]
    split <;> split <;> omega

/-- A chunk that decodes has as many bytes as it has digits, less one (R55, R102). -/
theorem decodeChunk_ok_length (T c : Nat) (ds : List Digit) (bs : List Byte) (h : 1 ≤ ds.length ∧ ds.length ≤ 5)
    (hok : decodeChunk T c ds = .ok bs) : bs.length = ds.length - 1 := by
  cases hf : firstInvalid (BitVec.ofNat 3 ds.length) (issueDigits ds) with
  | some i => rw [decodeChunk_of_invalid T c ds h i hf] at hok; cases hok
  | none =>
    have hds := (firstInvalid_issueDigits_none_iff ds h.2).1 hf
    by_cases h1 : ds.length = 1
    · obtain ⟨d, rfl⟩ := List.length_eq_one_iff.1 h1
      rw [decodeChunk_of_single T c d (hds d (by simp))] at hok
      cases hok
    · rw [decodeChunk_of_valid T c ds (by omega) hds] at hok
      split at hok
      · cases hok
      · cases hok
        simp only [List.length_take, dataBytes, List.length_cons, List.length_nil]
        omega

theorem joinBytes_eq_ok {x y : Except DecodeTextError (List Byte)} {bs : List Byte} (h : joinBytes x y = .ok bs) :
    ∃ b1 b2, x = .ok b1 ∧ y = .ok b2 ∧ bs = b1 ++ b2 := by
  unfold joinBytes at h
  split at h <;> cases h
  exact ⟨_, _, rfl, rfl, rfl⟩

theorem decodeChunks_ok_length (T : Nat) (ds : List Digit) (c : Nat) (bs : List Byte)
    (hok : decodeChunks T c ds = .ok bs) : bs.length = 4 * (ds.length / 5) + (ds.length % 5 - 1) := by
  induction ds using chunk_induction 5 (by decide) generalizing c bs with
  | nil => cases (decodeChunks_nil T c).symm.trans hok; rfl
  | chunk ds hds ih =>
    rw [decodeChunks_chunk T c ds hds] at hok
    obtain ⟨b1, b2, h1, h2, rfl⟩ := joinBytes_eq_ok hok
    have hlen := decodeChunk_ok_length T c _ b1 (length_take_chunk ds 5 hds (by decide)) h1
    have hpos := List.length_pos_of_ne_nil hds
    rw [List.length_append, hlen, ih _ _ h2, List.length_take, List.length_drop]
    omega

theorem decodeBuffer_of_length_one (ds : List Digit) (h : ds.length % 5 = 1) :
    decodeBuffer ds = .error (.truncatedInput ds.length) := by
  rw [decodeBuffer, if_pos h]

theorem decodeBuffer_of_length_ne_one (ds : List Digit) (h : ds.length % 5 ≠ 1) :
    decodeBuffer ds = decodeChunks ds.length 0 ds := by
  rw [decodeBuffer, if_neg h]

/-- Settles O57: both laws count the chunks of a buffer one by one. -/
theorem bufferLengthLaws : Obligations.BufferLengthLaws := by
  unfold Obligations.BufferLengthLaws
  refine ⟨encodeBuffer_length, fun ds bs hok => ?_⟩
  by_cases h : ds.length % 5 = 1
  · rw [decodeBuffer_of_length_one ds h] at hok
    cases hok
  · rw [decodeBuffer_of_length_ne_one ds h] at hok
    exact ⟨h, decodeChunks_ok_length _ ds 0 bs hok⟩

/-! ### Round trip on digits (R56) -/

/-- The chunks of an encoded buffer are its encoded groups: only the last can have fewer than five digits (R52, R54). -/
theorem encodeBuffer_take_drop (fill : GroupWord) (bs : List Byte) (h : bs ≠ []) :
    (encodeBuffer fill bs).take 5 = encodeGroup fill (bs.take 4)
      ∧ (encodeBuffer fill bs).drop 5 = encodeBuffer fill (bs.drop 4) := by
  have hlen := encodeGroup_length fill (bs.take 4) (length_take_chunk bs 4 h (by decide))
  rw [List.length_take] at hlen
  rw [encodeBuffer_chunk fill bs h]
  by_cases h4 : 4 ≤ bs.length
  · have h5 : (encodeGroup fill (bs.take 4)).length = 5 := by omega
    exact ⟨List.take_left' h5, List.drop_left' h5⟩
  · rw [List.drop_eq_nil_of_le (as := bs) (by omega), encodeBuffer_nil, List.append_nil]
    exact ⟨List.take_of_length_le (by omega), List.drop_eq_nil_of_le (by omega)⟩

theorem decodeChunks_encodeBuffer (T : Nat) (fill : GroupWord) (bs : List Byte) (c : Nat) :
    decodeChunks T c (encodeBuffer fill bs) = .ok bs := by
  induction bs using chunk_induction 4 (by decide) generalizing c with
  | nil => simp
  | chunk bs hbs ih =>
    have hgroup := length_take_chunk bs 4 hbs (by decide)
    obtain ⟨htake, hdrop⟩ := encodeBuffer_take_drop fill bs hbs
    have hne : encodeBuffer fill bs ≠ [] := fun hnil => by
      have := encodeGroup_length fill _ hgroup
      rw [← htake, hnil] at this
      simp at this
    rw [decodeChunks_chunk T c _ hne, htake, hdrop, decodeChunk_encodeGroup T c fill _ hgroup, ih]
    exact congrArg _ (List.take_append_drop 4 bs)

theorem decodeBuffer_encodeBuffer (fill : GroupWord) (bs : List Byte) : decodeBuffer (encodeBuffer fill bs) = .ok bs := by
  have hlen := encodeBuffer_length fill bs
  rw [decodeBuffer_of_length_ne_one _ (by split at hlen <;> omega), decodeChunks_encodeBuffer]

theorem encodeBuffer_le (fill : GroupWord) (bs : List Byte) (d : Digit) (hd : d ∈ encodeBuffer fill bs) :
    d.toNat ≤ 84 := by
  induction bs using chunk_induction 4 (by decide) with
  | nil => simp at hd
  | chunk bs hbs ih =>
    rw [encodeBuffer_chunk fill bs hbs] at hd
    rcases List.mem_append.1 hd with hg | hr
    · exact encodeGroup_le fill _ (length_take_chunk bs 4 hbs (by decide)) d hg
    · exact ih hr

/-! ### The alphabet (R7, R14, R54) -/

theorem alphabetOk_iff (alphabet : List Char) : alphabetOk alphabet = true ↔ alphabet.length = 85 ∧ alphabet.Nodup := by
  simp [alphabetOk]

theorem valueOf_eq_none_iff (alphabet : List Char) (ch : Char) : valueOf alphabet ch = none ↔ ch ∉ alphabet := by
  simp only [valueOf, Option.map_eq_none_iff, List.findIdx?_eq_none_iff, decide_eq_false_iff_not]
  exact ⟨fun h hm => h ch hm rfl, fun h x hx hxc => h (hxc ▸ hx)⟩

/-- The digits of the alphabet's characters are 0 to 84 (R14). -/
theorem valueOf_le (alphabet : List Char) (ch : Char) (d : Digit) (ha : alphabetOk alphabet = true)
    (h : valueOf alphabet ch = some d) : d.toNat ≤ 84 := by
  obtain ⟨hlen, -⟩ := (alphabetOk_iff alphabet).1 ha
  obtain ⟨i, hi, rfl⟩ := Option.map_eq_some_iff.1 h
  obtain ⟨hlt, -⟩ := List.findIdx?_eq_some_iff_getElem.1 hi
  rw [BitVec.toNat_ofNat]
  omega

/-- Distinct digits have distinct characters, so a digit's character has that digit (R7, R14). -/
theorem valueOf_charOf (alphabet : List Char) (d : Digit) (ha : alphabetOk alphabet = true) (hd : d.toNat ≤ 84) :
    valueOf alphabet (charOf alphabet d) = some d := by
  obtain ⟨hlen, hnd⟩ := (alphabetOk_iff alphabet).1 ha
  have hlt : d.toNat < alphabet.length := by omega
  have hidx : alphabet.findIdx? (· = charOf alphabet d) = some d.toNat := by
    rw [List.findIdx?_eq_some_iff_getElem, charOf, List.getD_eq_getElem _ _ hlt]
    refine ⟨hlt, by simp, fun j hj => ?_⟩
    simpa [hnd.getElem_inj_iff] using hj.ne
  rw [valueOf, hidx]
  simp

/-! ### Texts (R54) -/

theorem textDigits_cons_of_some (alphabet : List Char) (pos : Nat) (ch : Char) (cs : List Char) (d : Digit)
    (h : valueOf alphabet ch = some d) :
    textDigits alphabet pos (ch :: cs) = (textDigits alphabet (pos + 1) cs).map (d :: ·) := by
  simp [textDigits, h]

theorem textDigits_cons_of_none (alphabet : List Char) (pos : Nat) (ch : Char) (cs : List Char)
    (h : valueOf alphabet ch = none) :
    textDigits alphabet pos (ch :: cs) = .error (.invalidCharacter pos) := by
  simp [textDigits, h]

theorem textDigits_map_charOf (alphabet : List Char) (ha : alphabetOk alphabet = true) (ds : List Digit) (pos : Nat)
    (hds : ∀ d ∈ ds, d.toNat ≤ 84) : textDigits alphabet pos (ds.map (charOf alphabet)) = .ok ds := by
  induction ds generalizing pos with
  | nil => rfl
  | cons d ds ih =>
    obtain ⟨hd, hrest⟩ := List.forall_mem_cons.1 hds
    rw [List.map_cons, textDigits_cons_of_some _ _ _ _ d (valueOf_charOf alphabet d ha hd), ih _ hrest]
    rfl

theorem decodeText_of_digits (alphabet cs : List Char) (ds : List Digit) (h : textDigits alphabet 0 cs = .ok ds) :
    decodeText alphabet cs = decodeBuffer ds := by
  simp [decodeText, h]

theorem decodeText_of_error (alphabet cs : List Char) (e : DecodeTextError) (h : textDigits alphabet 0 cs = .error e) :
    decodeText alphabet cs = .error e := by
  simp [decodeText, h]

/-- Settles O58: group by group on digits, and an alphabet gives every digit back from its character. -/
theorem buffersRoundTrip : Obligations.BuffersRoundTrip := by
  unfold Obligations.BuffersRoundTrip
  refine ⟨decodeBuffer_encodeBuffer, fun alphabet fill bs ha => ?_⟩
  have htext := textDigits_map_charOf alphabet ha (encodeBuffer fill bs) 0 (encodeBuffer_le fill bs)
  exact (decodeText_of_digits alphabet _ _ htext).trans (decodeBuffer_encodeBuffer fill bs)

/-! ### The errors of a text (R54, R57) -/

/-- A text over the alphabet has as many digits as characters, all of them 0 to 84 (R54). -/
theorem textDigits_of_mem (alphabet : List Char) (ha : alphabetOk alphabet = true) (cs : List Char) (pos : Nat)
    (hcs : ∀ ch ∈ cs, ch ∈ alphabet) :
    ∃ ds, textDigits alphabet pos cs = .ok ds ∧ ds.length = cs.length ∧ ∀ d ∈ ds, d.toNat ≤ 84 := by
  induction cs generalizing pos with
  | nil => exact ⟨[], rfl, rfl, by simp⟩
  | cons ch cs ih =>
    obtain ⟨hch, hrest⟩ := List.forall_mem_cons.1 hcs
    obtain ⟨ds, hds, hlen, hle⟩ := ih (pos + 1) hrest
    obtain ⟨d, hd⟩ := Option.ne_none_iff_exists'.1 fun hn => (valueOf_eq_none_iff alphabet ch).1 hn hch
    refine ⟨d :: ds, ?_, by simp [hlen], List.forall_mem_cons.2 ⟨valueOf_le alphabet ch d ha hd, hle⟩⟩
    rw [textDigits_cons_of_some _ _ _ _ d hd, hds]
    rfl

/-- The characters of a text are mapped in order, so the first foreign one is what is reported (R54). -/
theorem textDigits_of_first_foreign (alphabet cs : List Char) (pos i : Nat) (hi : i < cs.length)
    (hbefore : ∀ j < i, cs.getD j ' ' ∈ alphabet) (hforeign : cs.getD i ' ' ∉ alphabet) :
    textDigits alphabet pos cs = .error (.invalidCharacter (pos + i)) := by
  induction cs generalizing pos i with
  | nil => simp at hi
  | cons ch cs ih =>
    cases i with
    | zero => exact textDigits_cons_of_none _ _ _ _ ((valueOf_eq_none_iff alphabet ch).2 hforeign)
    | succ i =>
      have hch : ch ∈ alphabet := hbefore 0 (Nat.succ_pos i)
      obtain ⟨d, hd⟩ := Option.ne_none_iff_exists'.1 fun hn => (valueOf_eq_none_iff alphabet ch).1 hn hch
      have hrest := ih (pos + 1) i (Nat.lt_of_succ_lt_succ hi) (fun j hj => hbefore (j + 1) (Nat.succ_lt_succ hj))
        hforeign
      rw [textDigits_cons_of_some _ _ _ _ d hd, hrest, Nat.add_right_comm]
      rfl

theorem decodeChunk_ne_invalidCharacter (T c i : Nat) (ds : List Digit) (h : 1 ≤ ds.length ∧ ds.length ≤ 5)
    (hds : ∀ d ∈ ds, d.toNat ≤ 84) : decodeChunk T c ds ≠ .error (.invalidCharacter i) := by
  by_cases h1 : ds.length = 1
  · obtain ⟨d, rfl⟩ := List.length_eq_one_iff.1 h1
    rw [decodeChunk_of_single T c d (hds d (by simp))]
    exact nofun
  · rw [decodeChunk_of_valid T c ds (by omega) hds]
    split <;> exact nofun

theorem joinBytes_eq_error {x y : Except DecodeTextError (List Byte)} {e : DecodeTextError}
    (h : joinBytes x y = .error e) : x = .error e ∨ y = .error e := by
  unfold joinBytes at h
  split at h <;> cases h
  · exact .inr rfl
  · exact .inl rfl

/-- A wrapper whose characters are mapped first never sees INVALID_DIGIT (R57). -/
theorem decodeChunks_ne_invalidCharacter (T i : Nat) (ds : List Digit) (c : Nat) (hds : ∀ d ∈ ds, d.toNat ≤ 84) :
    decodeChunks T c ds ≠ .error (.invalidCharacter i) := by
  induction ds using chunk_induction 5 (by decide) generalizing c with
  | nil => rw [decodeChunks_nil]; exact nofun
  | chunk ds hne ih =>
    rw [decodeChunks_chunk T c ds hne]
    intro herr
    rcases joinBytes_eq_error herr with hfirst | hrest
    · exact decodeChunk_ne_invalidCharacter T c i _ (length_take_chunk ds 5 hne (by decide))
        (fun d hd => hds d (List.mem_of_mem_take hd)) hfirst
    · exact ih (c + 1) (fun d hd => hds d (List.mem_of_mem_drop hd)) hrest

/-- Settles O59: the characters are mapped before any chunk, and chunks of mapped characters hold digits only. -/
theorem wrapperErrorsOfTexts : Obligations.WrapperErrorsOfTexts := by
  unfold Obligations.WrapperErrorsOfTexts
  refine fun alphabet cs ha => ⟨fun i hi hbefore hforeign => ?_, fun hcs => ?_⟩
  · have htext := textDigits_of_first_foreign alphabet cs 0 i hi hbefore hforeign
    rw [Nat.zero_add] at htext
    exact decodeText_of_error alphabet cs _ htext
  · obtain ⟨ds, htext, hlen, hle⟩ := textDigits_of_mem alphabet ha cs 0 hcs
    rw [decodeText_of_digits alphabet cs ds htext, ← hlen]
    refine ⟨decodeBuffer_of_length_one ds, fun i => ?_⟩
    by_cases h : ds.length % 5 = 1
    · rw [decodeBuffer_of_length_one ds h]
      exact nofun
    · rw [decodeBuffer_of_length_ne_one ds h]
      exact decodeChunks_ne_invalidCharacter _ i ds 0 hle

/-! ### The errors and the bytes of chunks (R54, R57) -/

/-- The first digit above 84 of a chunk is the one that is reported (R57, R96). -/
theorem decodeChunk_of_first_invalid (T c : Nat) (ds : List Digit) (hlen : ds.length ≤ 5) (p : Nat) (hp : p < ds.length)
    (hinvalid : 84 < (ds.getD p 0).toNat) (hbefore : ∀ j < p, (ds.getD j 0).toNat ≤ 84) :
    decodeChunk T c ds = .error (.invalidCharacter (5 * c + p)) := by
  refine decodeChunk_of_invalid T c ds (by omega) ⟨p, by omega⟩ ((firstInvalid_some_iff _ _ _).2 ⟨?_, ?_, fun j hj => ?_⟩)
  · rwa [count_ofNat_toNat _ (by omega)]
  · rwa [issueDigits_get]
  · rw [issueDigits_get]
    exact hbefore j hj

/-- Chunk j of a text: its digits from 5j on, at most five (R54). -/
def chunkAt (ds : List Digit) (j : Nat) : List Digit := (ds.drop (5 * j)).take 5

theorem chunkAt_zero (ds : List Digit) : chunkAt ds 0 = ds.take 5 := rfl

theorem chunkAt_succ (ds : List Digit) (j : Nat) : chunkAt ds (j + 1) = chunkAt (ds.drop 5) j := by
  rw [chunkAt, chunkAt, List.drop_drop, Nat.mul_succ, Nat.add_comm]

/-- After chunks that decode, the first error stands, whatever follows it (R54; log entry 11). -/
theorem decodeChunks_of_first_error (T j : Nat) (e : DecodeTextError) (c : Nat) (ds : List Digit)
    (hj : 5 * j < ds.length) (hbefore : ∀ i < j, ∃ bs, decodeChunk T (c + i) (chunkAt ds i) = .ok bs)
    (herr : decodeChunk T (c + j) (chunkAt ds j) = .error e) : decodeChunks T c ds = .error e := by
  induction j generalizing c ds with
  | zero =>
    have hfirst : decodeChunk T c (ds.take 5) = .error e := herr
    rw [decodeChunks_chunk T c ds (List.ne_nil_of_length_pos hj), hfirst]
    rfl
  | succ j ih =>
    obtain ⟨bs, hbs⟩ := hbefore 0 (Nat.succ_pos j)
    have hfirst : decodeChunk T c (ds.take 5) = .ok bs := hbs
    have hrest : decodeChunks T (c + 1) (ds.drop 5) = .error e := by
      refine ih (c + 1) (ds.drop 5) (by rw [List.length_drop]; omega) (fun i hi => ?_) ?_
      · rw [← chunkAt_succ, Nat.add_assoc, Nat.add_comm 1]
        exact hbefore (i + 1) (Nat.succ_lt_succ hi)
      · rw [← chunkAt_succ, Nat.add_assoc, Nat.add_comm 1]
        exact herr
    rw [decodeChunks_chunk T c ds (List.ne_nil_of_length_pos (by omega)), hfirst, hrest]
    rfl

/-- Where every chunk decodes, the bytes are put together in order (R54). -/
theorem decodeChunks_of_all_ok (T : Nat) (bss : List (List Byte)) (c : Nat) (ds : List Digit)
    (hlen : bss.length = (ds.length + 4) / 5)
    (hok : ∀ j < bss.length, decodeChunk T (c + j) (chunkAt ds j) = .ok (bss.getD j [])) :
    decodeChunks T c ds = .ok bss.flatten := by
  induction bss generalizing c ds with
  | nil =>
    rw [List.length_nil] at hlen
    rw [List.eq_nil_of_length_eq_zero (l := ds) (by omega), decodeChunks_nil]
    rfl
  | cons bs bss ih =>
    rw [List.length_cons] at hlen
    have hfirst : decodeChunk T c (ds.take 5) = .ok bs := hok 0 (Nat.succ_pos _)
    have hrest : decodeChunks T (c + 1) (ds.drop 5) = .ok bss.flatten := by
      refine ih (c + 1) (ds.drop 5) (by rw [List.length_drop]; omega) fun j hj => ?_
      rw [← chunkAt_succ, Nat.add_assoc, Nat.add_comm 1]
      exact hok (j + 1) (Nat.succ_lt_succ hj)
    rw [decodeChunks_chunk T c ds (List.ne_nil_of_length_pos (by omega)), hfirst, hrest]
    rfl

/-- Settles O60: a chunk by the answer to its command, a text chunk by chunk. -/
theorem wrapperErrorsOfChunks : Obligations.WrapperErrorsOfChunks := by
  unfold Obligations.WrapperErrorsOfChunks
  refine ⟨fun T c ds h2 h5 => ⟨decodeChunk_of_first_invalid T c ds h5, fun hds => ⟨fun hover => ?_, fun hfit => ?_⟩⟩,
    fun ds hds => ⟨fun j e hj hbefore herr => ?_, fun bss hlen hok => ?_⟩⟩
  · exact (decodeChunk_of_valid T c ds ⟨h2, h5⟩ hds).trans (if_pos hover)
  · exact (decodeChunk_of_valid T c ds ⟨h2, h5⟩ hds).trans (if_neg (Nat.not_lt.2 hfit))
  · rw [decodeBuffer_of_length_ne_one ds hds]
    refine decodeChunks_of_first_error ds.length j e 0 ds hj (fun i hi => ?_) ?_
    · rw [Nat.zero_add]
      exact hbefore i hi
    · rwa [Nat.zero_add]
  · rw [decodeBuffer_of_length_ne_one ds hds]
    refine decodeChunks_of_all_ok ds.length bss 0 ds hlen fun j hj => ?_
    rw [Nat.zero_add]
    exact hok j hj

end Sys2Proof.Machine
end

section
/-! PROOFS. Family 30_encoding: which words are commands, the words the assembler writes, and the fields of every answer.
A legal word is one that decodes to a well-formed command (`decodes_wellFormed_iff`), and any status but OVERFLOW tells what the
check found in the word (`check_of_status`). -/

namespace Sys2Proof.Machine

/-! ### The opcode map (R71, R72, R77, R118) -/

/-- Settles O48: each word by evaluating the decoder. -/
theorem workedWordsDecode : Obligations.WorkedWordsDecode := by
  unfold Obligations.WorkedWordsDecode
  decide

/-- R72's response word. -/
theorem errorWord_illegalCmd : errorWord .illegalCmd 0 = 0x8000000000000000 := by decide

theorem check_of_decode_error (c : Word64) (e : DecodeError) (h : decode c = .error e) : check c = (.illegalCmd, 0) := by
  simp only [check, h]

theorem accept_of_illegalCmd (c : Word64) (s : State) (h : check c = (.illegalCmd, 0)) :
    accept c s = .next { s with rsp := 0x8000000000000000, phase := .done } := by
  rw [accept_of_error c s (by rw [h]; decide), h, answerError, errorWord_illegalCmd]
  rfl

/-- Settles O13: each row's words are decoded by that row, no word is in both, and a word of neither fails the check. -/
theorem wordsSelectTheirRow : Obligations.WordsSelectTheirRow := by
  intro c
  refine ⟨fun henc => ⟨decode_of_matches_enc c henc, fun hdec => not_matches_both c hdec henc⟩,
    decode_of_matches_dec c, fun henc hdec s => ?_⟩
  obtain ⟨e, he⟩ := decode_of_no_match c henc hdec
  exact accept_of_illegalCmd c s (check_of_decode_error c e he)

/-! ### Legal words (R60, R71, R72) -/

/-- A word that decodes is the word of what it decodes to: its fields and the bits its row fixes make it up (R65, R71). -/
theorem encode_of_decode (c : Word64) (i : Instr) (h : decode c = .ok i) : encode i = c := by
  rcases decode_cases c with ⟨hm, hd⟩ | ⟨hm, hd⟩ | ⟨-, -, e, hd⟩ <;> rw [hd] at h <;> cases h
  · obtain ⟨hop, hres⟩ := (matches_enc_iff c).1 hm
    conv_rhs => rw [word_split_formatE c, hop, hres]
    rfl
  · obtain ⟨hop, hres⟩ := (matches_dec_iff c).1 hm
    conv_rhs => rw [word_split_formatD c, hop, hres]
    exact congrArg (1#2 ++ cmdCnt c ++ 0#24 ++ ·) (packDigits_digitFields c)

theorem wellFormed_enc_iff (n : Count) (v : GroupWord) :
    (Instr.enc n v).WellFormed ↔ 1 ≤ n.toNat ∧ n.toNat ≤ 4 := by
  simp [Instr.WellFormed, Instr.wellFormed]

theorem wellFormed_dec_iff (k : Count) (d : Digits) :
    (Instr.dec k d).WellFormed ↔ 1 ≤ k.toNat ∧ k.toNat ≤ 5 := by
  simp [Instr.WellFormed, Instr.wellFormed]

/-- R72's legal words, by mask and count, are those that decode to a well-formed command. -/
theorem decodes_wellFormed_iff (c : Word64) :
    (∃ i, decode c = .ok i ∧ i.WellFormed) ↔
      (c &&& encMask = encMatch ∧ 1 ≤ (cmdCnt c).toNat ∧ (cmdCnt c).toNat ≤ 4)
        ∨ (c &&& decMask = decMatch ∧ 1 ≤ (cmdCnt c).toNat ∧ (cmdCnt c).toNat ≤ 5) := by
  constructor
  · rintro ⟨i, hi, hw⟩
    rcases decode_cases c with ⟨hm, hd⟩ | ⟨hm, hd⟩ | ⟨-, -, e, hd⟩ <;> rw [hd] at hi <;> cases hi
    · exact .inl ⟨hm, (wellFormed_enc_iff _ _).1 hw⟩
    · exact .inr ⟨hm, (wellFormed_dec_iff _ _).1 hw⟩
  · rintro (⟨hm, hc⟩ | ⟨hm, hc⟩)
    · exact ⟨_, decode_of_matches_enc c hm, (wellFormed_enc_iff _ _).2 hc⟩
    · exact ⟨_, decode_of_matches_dec c hm, (wellFormed_dec_iff _ _).2 hc⟩

/-- A count that is not legal is found before anything else (R60, R120). -/
theorem checkInstr_of_not_wellFormed (i : Instr) (h : ¬ i.WellFormed) : checkInstr i = (.illegalCmd, 0) := by
  cases i with
  | enc n v => exact encCheck_of_bad n (mt (wellFormed_enc_iff n v).2 h)
  | dec k d => exact decCheck_of_bad k d (mt (wellFormed_dec_iff k d).2 h)

theorem checkInstr_ne_illegalCmd (i : Instr) (h : i.WellFormed) : (checkInstr i).1 ≠ .illegalCmd := by
  cases i with
  | enc n v =>
    rw [checkInstr, (encCheck_ok_iff n).2 ((wellFormed_enc_iff n v).1 h)]
    decide
  | dec k d =>
    have hk := (wellFormed_dec_iff k d).1 h
    rw [checkInstr]
    cases hf : firstInvalid k d with
    | some p => rw [decCheck_of_invalid k d p hk hf]; simp
    | none => rw [decCheck_of_valid k d hk hf]; split <;> simp

theorem check_of_not_legal (c : Word64) (h : ¬ ∃ i, decode c = .ok i ∧ i.WellFormed) : check c = (.illegalCmd, 0) := by
  cases hd : decode c with
  | ok i => exact (check_of_decode c i hd).trans (checkInstr_of_not_wellFormed i fun hw => h ⟨i, hd, hw⟩)
  | error e => exact check_of_decode_error c e hd

/-! ### The status of an answer (R67, R120) -/

@[simp] theorem rspStatus_errorWord (st : Status) (p : Count) : rspStatus (errorWord st p) = st.code :=
  rspStatus_respond st 0 p 0

@[simp] theorem rspEpos_errorWord (st : Status) (p : Count) : rspEpos (errorWord st p) = p :=
  rspEpos_respond st 0 p 0

theorem code_injective : Function.Injective Status.code := fun s t h =>
  Option.some.inj (by rw [← ofCode_code s, h, ofCode_code t])

/-- A command that passes every check is answered OK or OVERFLOW (R78, R93). -/
theorem rspStatus_computed (i : Instr) :
    rspStatus (computed i) = Status.ok.code ∨ rspStatus (computed i) = Status.overflow.code := by
  cases i with
  | enc n v => exact .inl (rspStatus_respond ..)
  | dec k d =>
    rw [computed, decResult, decWord]
    split
    · exact .inr (rspStatus_errorWord ..)
    · exact .inl (rspStatus_respond ..)

/-- Any status but OVERFLOW is the one the check found (R120). -/
theorem check_of_status (c : Word64) (st : Status) (hst : st ≠ .overflow) (h : rspStatus (result c) = st.code) :
    (check c).1 = st := by
  by_cases hc : (check c).1 = .ok
  · obtain ⟨i, hd, hi⟩ := check_ok_decodes c hc
    rw [result_of_ok c i hd hi] at h
    rcases rspStatus_computed i with hs | hs
    · exact hc.trans (code_injective (hs.symm.trans h))
    · exact absurd (code_injective (h.symm.trans hs)) hst
  · rw [result_of_error c hc, rspStatus_errorWord] at h
    exact code_injective h

theorem checkInstr_of_status (c : Word64) (i : Instr) (st : Status) (hd : decode c = .ok i) (hst : st ≠ .overflow)
    (h : rspStatus (result c) = st.code) : (checkInstr i).1 = st := by
  rw [← check_of_decode c i hd]
  exact check_of_status c st hst h

/-- Settles O14: by the check, which finds ILLEGAL_CMD in exactly the words that decode to no well-formed command. -/
theorem illegalWordsAndOnlyTheyAreIllegal : Obligations.IllegalWordsAndOnlyTheyAreIllegal := by
  refine ⟨fun c p s hs hr hv hp hl => ?_, fun c hl hst => ?_, fun c => ?_, by decide⟩
  · rw [edge_idle_command p s hr hs hv, hp]
    exact accept_of_illegalCmd c s (check_of_not_legal c (mt (decodes_wellFormed_iff c).1 hl))
  · obtain ⟨i, hd, hw⟩ := (decodes_wellFormed_iff c).2 hl
    exact checkInstr_ne_illegalCmd i hw (checkInstr_of_status c i .illegalCmd hd (by decide) hst)
  · refine (decodes_wellFormed_iff c).symm.trans (exists_congr fun i => ?_)
    rw [and_comm]
    exact and_congr_right fun _ => ⟨fun hd => (encode_of_decode c i hd).symm, fun hc => hc ▸ decode_encode i⟩

/-! ### The fields of every answer (R66 to R70) -/

theorem responseOk_result (c : Word64) : responseOk (result c) := by
  by_cases hc : (check c).1 = .ok
  · obtain ⟨i, hd, hi⟩ := check_ok_decodes c hc
    rw [result_of_ok c i hd hi]
    cases i with
    | enc n v => exact responseOk_encWord n _ ((encCheck_ok_iff n).1 hi).2
    | dec k d =>
      obtain ⟨h2, h5, -⟩ := (decCheck_ok_iff k d).1 hi
      exact responseOk_decWord k _ (by omega) h5
  · rw [result_of_error c hc]
    exact responseOk_check c

/-- `ocnt` of a successful ENC (R68). -/
theorem rspOcnt_of_enc_ok (c : Word64) (n : Count) (v : GroupWord) (hd : decode c = .ok (.enc n v))
    (hs : rspStatus (result c) = 0) : (rspOcnt (result c)).toNat = n.toNat + 1 ∧ 1 ≤ n.toNat ∧ n.toNat ≤ 4 := by
  have hc : (encCheck n).1 = .ok := checkInstr_of_status c _ .ok hd (by decide) hs
  have hn := (encCheck_ok_iff n).1 hc
  have hocnt : rspOcnt (result c) = n + 1 := by
    rw [result_of_ok c _ hd hc]
    exact rspOcnt_respond ..
  exact ⟨by rw [hocnt, count_succ_toNat n (by omega)], hn⟩

theorem rspOcnt_decWord_of_ok (k : Count) (value : Nat) (h : rspStatus (decWord k value) = 0) :
    rspOcnt (decWord k value) = k - 1 := by
  by_cases hv : Config.vMax < value
  · rw [decWord, if_pos hv, rspStatus_errorWord] at h
    exact absurd h (by decide)
  · rw [decWord, if_neg hv, rspOcnt_respond]

/-- `ocnt` of a successful DEC (R68). -/
theorem rspOcnt_of_dec_ok (c : Word64) (k : Count) (d : Digits) (hd : decode c = .ok (.dec k d))
    (hs : rspStatus (result c) = 0) : (rspOcnt (result c)).toNat + 1 = k.toNat ∧ 2 ≤ k.toNat ∧ k.toNat ≤ 5 := by
  have hc : (decCheck k d).1 = .ok := checkInstr_of_status c _ .ok hd (by decide) hs
  obtain ⟨h2, h5, -⟩ := (decCheck_ok_iff k d).1 hc
  rw [result_of_ok c _ hd hc] at hs ⊢
  have hocnt : rspOcnt (computed (.dec k d)) = k - 1 := rspOcnt_decWord_of_ok k _ hs
  rw [hocnt, count_pred_toNat k (by omega)]
  omega

theorem encCheck_ne_invalidDigit (n : Count) : (encCheck n).1 ≠ .invalidDigit := by
  unfold encCheck
  split <;> decide

/-- The position found with INVALID_DIGIT is the least invalid place (R96, R115). -/
theorem decCheck_invalidDigit (k : Count) (d : Digits) (h : (decCheck k d).1 = .invalidDigit) :
    ∃ i, firstInvalid k d = some i ∧ (decCheck k d).2 = BitVec.ofNat 3 i.val := by
  by_cases hk : 1 ≤ k.toNat ∧ k.toNat ≤ 5
  · cases hf : firstInvalid k d with
    | some i => exact ⟨i, rfl, by rw [decCheck_of_invalid k d i hk hf]⟩
    | none =>
      rw [decCheck_of_valid k d hk hf] at h
      split at h <;> cases h
  · rw [decCheck_of_bad k d hk] at h
    cases h

/-- INVALID_DIGIT answers only a DEC command, and `epos` is the least place of an input digit above 84 (R69, R96, R115). -/
theorem rspEpos_of_invalidDigit (c : Word64) (hs : rspStatus (result c) = 1) :
    ∃ k d, decode c = .ok (.dec k d) ∧
      ∃ i : Fin 5, (rspEpos (result c)).toNat = i.val ∧ i.val < k.toNat ∧ 84 < (d.get i).toNat
        ∧ ∀ j : Fin 5, j < i → (d.get j).toNat ≤ 84 := by
  have hc : (check c).1 = .invalidDigit := check_of_status c .invalidDigit (by decide) hs
  rw [result_of_error c (by rw [hc]; decide), rspEpos_errorWord]
  cases hd : decode c with
  | error e =>
    rw [check_of_decode_error c e hd] at hc
    cases hc
  | ok instr =>
    rw [check_of_decode c instr hd] at hc ⊢
    cases instr with
    | enc n v => exact absurd hc (encCheck_ne_invalidDigit n)
    | dec k d =>
      obtain ⟨i, hi, hpos⟩ := decCheck_invalidDigit k d hc
      refine ⟨k, d, rfl, i, ?_, (firstInvalid_some_iff k d i).1 hi⟩
      rw [checkInstr, hpos, count_ofNat_toNat i.val (by omega)]

/-- Settles O45: status, errors and the other positions by `responseOk`, the counts of a success and the position of an
INVALID_DIGIT by the check that the status tells of. -/
theorem responseFieldsOfEveryWord : Obligations.ResponseFieldsOfEveryWord := by
  intro c
  obtain ⟨hstatus, -, -, -, herror, hepos⟩ := responseOk_result c
  exact ⟨hstatus, fun hs => (herror hs).1, rspOcnt_of_enc_ok c, rspOcnt_of_dec_ok c, rspEpos_of_invalidDigit c, hepos⟩

/-! ### The assembler (R75, R76) -/

theorem packDigits_toNat (d : Digits) :
    (packDigits d).toNat
      = d.d0.toNat * 2 ^ 28 + d.d1.toNat * 2 ^ 21 + d.d2.toNat * 2 ^ 14 + d.d3.toNat * 2 ^ 7 + d.d4.toNat := by
  simp only [packDigits, toNat_append_words]
  ring

theorem encode_enc_toNat (n : Count) (v : GroupWord) : (encode (.enc n v)).toNat = n.toNat * 2 ^ 59 + v.toNat := by
  simp only [encode, toNat_append_words, BitVec.toNat_ofNat]
  ring

theorem encode_dec_toNat (k : Count) (d : Digits) :
    (encode (.dec k d)).toNat = 2 ^ 62 + k.toNat * 2 ^ 59 + (packDigits d).toNat := by
  simp only [encode, toNat_append_words, BitVec.toNat_ofNat]
  ring

/-- Five written digits stand for themselves, whatever k is. -/
theorem fullDigits_of_five (k : Nat) (ds : List Nat) (h : ds.length = 5) : fullDigits k ds = ds :=
  if_neg (by omega)

/-- Fewer than five digits, k of them, are filled up with 0 (R76). -/
theorem fullDigits_of_short (ds : List Nat) (h : ds.length < 5) :
    fullDigits ds.length ds = ds ++ List.replicate (5 - ds.length) 0 :=
  if_pos ⟨rfl, h⟩

theorem assemble_dec_congr (k : Nat) (ds es : List Nat) (h : fullDigits k ds = fullDigits k es) :
    assemble (.dec k ds) = assemble (.dec k es) := by
  simp only [assemble, assembleInstr, h]

theorem assemble_enc (n v : Nat) : assemble (.enc n v) =
    if n ≤ 7 ∧ v ≤ 0xFFFFFFFF then some (BitVec.ofNat 64 (n * 2 ^ 59 + v)) else none := by
  rw [assemble, assembleInstr]
  split
  next h =>
    refine congrArg some (BitVec.eq_of_toNat_eq ?_)
    simp only [encode_enc_toNat, BitVec.toNat_ofNat]
    omega
  next => rfl

theorem assemble_dec_five (k a b c d e : Nat) : assemble (.dec k [a, b, c, d, e]) =
    if k ≤ 7 ∧ a ≤ 127 ∧ b ≤ 127 ∧ c ≤ 127 ∧ d ≤ 127 ∧ e ≤ 127 then
      some (BitVec.ofNat 64 (2 ^ 62 + k * 2 ^ 59 + a * 2 ^ 28 + b * 2 ^ 21 + c * 2 ^ 14 + d * 2 ^ 7 + e))
    else none := by
  rw [assemble, assembleInstr, fullDigits_of_five k _ rfl, asmDigits]
  by_cases hk : k ≤ 7
  · by_cases hd : a ≤ 127 ∧ b ≤ 127 ∧ c ≤ 127 ∧ d ≤ 127 ∧ e ≤ 127
    · rw [if_pos hk, if_pos hd, if_pos ⟨hk, hd⟩]
      refine congrArg some (BitVec.eq_of_toNat_eq ?_)
      simp only [encode_dec_toNat, packDigits_toNat, BitVec.toNat_ofNat]
      omega
    · rw [if_pos hk, if_neg hd, if_neg fun h => hd h.2]
      rfl
  · rw [if_neg hk, if_neg fun h => hk h.1]
    rfl

/-- Settles O56: the fields side by side are the sum of their values, and the pseudo-form and the full form have the same five
digits. -/
theorem assemblerPlacesOperands : Obligations.AssemblerPlacesOperands := by
  refine ⟨assemble_enc, assemble_dec_five, fun ds h => assemble_dec_congr _ _ _ ?_⟩
  have hfull : (ds ++ List.replicate (5 - ds.length) 0).length = 5 := by
    rw [List.length_append, List.length_replicate]
    omega
  rw [fullDigits_of_short ds h, fullDigits_of_five _ _ hfull]

end Sys2Proof.Machine
end

section
/-! PROOFS. Family 40_encoder: what an ENC command does at its accepting edge and at each of its five BUSY edges, and what its
answer holds. Every BUSY edge of ENC is one function of the state (`encEdge`), and every answer is the kept digits of the masked
value (`Reached`, `result_encode_enc`). -/

namespace Sys2Proof.Machine

/-! ### The accepting edge (R79, R81) -/

theorem exec_enc_of_legal (n : Count) (v : GroupWord) (s : State) (hn : 1 ≤ n.toNat ∧ n.toNat ≤ 4) :
    exec (.enc n v) s = .next (encInit n v s) :=
  exec_of_ok (.enc n v) s ((encCheck_ok_iff n).2 hn)

/-- Settles O19: a legal count passes the check, and what starts the command is ENC_INIT. -/
theorem encStartsAtAcceptance : Obligations.EncStartsAtAcceptance :=
  fun n v s h1 h4 => exec_enc_of_legal n v s ⟨h1, h4⟩

/-- Settles O15: with op = 00 only ENC's row can match, and it does so exactly when [58:32] = 0. -/
theorem encLegality : Obligations.EncLegality := by
  intro c s hop
  split
  next hlegal =>
    obtain ⟨hres, hcnt⟩ := hlegal
    have hm : c &&& encMask = encMatch := (matches_enc_iff c).2 ⟨hop, hres⟩
    exact ⟨_, accept_of_ok c s _ (decode_of_matches_enc c hm) ((encCheck_ok_iff _).2 hcnt), rfl⟩
  next hillegal =>
    refine accept_of_illegalCmd c s (check_of_not_legal c fun hlegal => ?_)
    rcases (decodes_wellFormed_iff c).1 hlegal with ⟨hm, hcnt⟩ | ⟨hm, -⟩
    · exact hillegal ⟨((matches_enc_iff c).1 hm).2, hcnt⟩
    · exact absurd (hop.symm.trans ((matches_dec_iff c).1 hm).1) (by decide)

/-! ### One BUSY edge (R82, R83) -/

/-- The state after the BUSY edge of ENC at place i = STEP: the micro-step, and at the fifth ENC_FINISH (R37). -/
def encEdge (i : Fin 5) (s : State) : State :=
  if i = 4 then encFinish (countStep (encStep i s)) else countStep (encStep i s)

theorem edge_enc (p : Pins) (s : State) (i : Fin 5) (hr : p.rst = false) (hs : s.phase = .busy) (ho : s.op = 0)
    (hi : s.step.toNat = i.val) (hc : 1 ≤ s.cnt.toNat ∧ s.cnt.toNat ≤ 4) : edge p s = .next (encEdge i s) := by
  rw [edge_busy p s hr hs, busyEdge_enc s i ho hi, encEdge]
  split
  · exact finish_enc (countStep (encStep i s)) ho hc
  · rfl

@[simp] theorem encEdge_phase (i : Fin 5) (s : State) : (encEdge i s).phase = if i = 4 then .done else s.phase := by
  unfold encEdge; split <;> rfl
@[simp] theorem encEdge_op (i : Fin 5) (s : State) : (encEdge i s).op = s.op := by unfold encEdge; split <;> rfl
@[simp] theorem encEdge_cnt (i : Fin 5) (s : State) : (encEdge i s).cnt = s.cnt := by unfold encEdge; split <;> rfl
@[simp] theorem encEdge_step (i : Fin 5) (s : State) : (encEdge i s).step = s.step + 1 := by
  unfold encEdge; split <;> rfl
@[simp] theorem encEdge_q (i : Fin 5) (s : State) : (encEdge i s).q = (encStep i s).q := by
  unfold encEdge; split <;> rfl
@[simp] theorem encEdge_acc (i : Fin 5) (s : State) : (encEdge i s).acc = s.acc := by unfold encEdge; split <;> rfl
@[simp] theorem encEdge_dig (i : Fin 5) (s : State) : (encEdge i s).dig = (encStep i s).dig := by
  unfold encEdge; split <;> rfl
@[simp] theorem encEdge_rsp (i : Fin 5) (s : State) :
    (encEdge i s).rsp = if i = 4 then encWord s.cnt (encEdge i s).dig else s.rsp := by
  unfold encEdge; split <;> rfl
@[simp] theorem encEdge_host (i : Fin 5) (s : State) : (encEdge i s).host = s.host := by unfold encEdge; split <;> rfl
@[simp] theorem encEdge_drawn (i : Fin 5) (s : State) : (encEdge i s).drawn = s.drawn := by unfold encEdge; split <;> rfl

theorem encStep_q_toNat (i : Fin 5) (s : State) : (encStep i s).q.toNat = s.q.toNat / 85 := by
  have := s.q.isLt
  rw [encStep_q, BitVec.toNat_ofNat, Config.radix]
  omega

/-- The place of a STEP, the fifth being STEP 4 (R29). -/
theorem step_eq_four_iff (x : BitVec 3) (i : Fin 5) (hi : x.toNat = i.val) : x = 4 ↔ i = 4 := by
  rw [← BitVec.toNat_inj, hi, Fin.ext_iff]
  rfl

/-- Settles O21: each register after the edge, read off `encEdge`. -/
theorem encMicroStep : Obligations.EncMicroStep := by
  intro p s hr hs ho hstep h1 h4
  obtain ⟨i, hi⟩ : ∃ i : Fin 5, s.step.toNat = i.val := ⟨⟨s.step.toNat, by omega⟩, rfl⟩
  have hlast := step_eq_four_iff s.step i hi
  have hrev : i.rev.val = 4 - s.step.toNat := by rw [Fin.val_rev]; omega
  refine ⟨encEdge i s, edge_enc p s i hr hs ho hi ⟨h1, h4⟩, fun j hj => ?_, fun j hj => ?_, ?_, ?_, ?_, fun hne => ?_,
    encEdge_acc i s, encEdge_op i s, encEdge_cnt i s, encEdge_host i s, encEdge_drawn i s⟩
  · have hji : j = i.rev := Fin.ext (hj.trans hrev.symm)
    rw [encEdge_dig, encStep_dig, hji, Digits.get_set_same, mod85_digit_toNat]
  · have hji : j ≠ i.rev := fun h => hj (h ▸ hrev)
    rw [encEdge_dig, encStep_dig, Digits.get_set_other _ _ _ _ hji]
  · rw [encEdge_q, encStep_q_toNat]
  · rw [encEdge_step, count_succ_toNat _ (by omega)]
  · rw [encEdge_phase, hs]
    simp only [hlast]
  · rw [encEdge_rsp, if_neg (mt hlast.2 hne)]

/-- Settles O22: at place 4 the response is built from the digits the edge leaves, and its word is R83's field by field. -/
theorem encFinishBuildsResponse : Obligations.EncFinishBuildsResponse := by
  intro p s hr hs ho hstep h1 h4
  exact ⟨encEdge 4 s, edge_enc p s 4 hr hs ho (by rw [hstep]; rfl) ⟨h1, h4⟩, rfl, rfl⟩

/-! ### The five BUSY edges (R78, R84, R85) -/

/-- The command starts in every state, and m ≤ 5 edges without a reset make m micro-steps, whatever else the host drives. -/
theorem exec_enc_reaches (n : Count) (v : GroupWord) (s : State) (ps : List Pins) (hn : 1 ≤ n.toNat ∧ n.toNat ≤ 4)
    (hl : ps.length ≤ 5) (hr : noReset ps) :
    ∃ t u, exec (.enc n v) s = .next t ∧ runEdges ps t = .next u ∧ Reached (.enc n v) ps.length u := by
  obtain ⟨u, hu, hReached⟩ := runEdges_reached ps (.enc n v) 0 (encInit n v s) hr ((encCheck_ok_iff n).2 hn) (by omega)
    (reached_start (.enc n v) s)
  rw [Nat.zero_add] at hReached
  exact ⟨_, u, exec_enc_of_legal n v s hn, hu, hReached⟩

/-- The digit places of an ENC answer: those of the masked value up to n, and 0 above (R70, R78). -/
theorem digitFields_encResult_get (n : Count) (v : GroupWord) (i : Fin 5) :
    ((digitFields (encResult n v)).get i).toNat =
      if i.val ≤ n.toNat then (realBytes n v).toNat / 85 ^ (4 - i.val) % 85 else 0 := by
  rw [encResult, encWord, digitFields_respond, keptDigits_get, digitsOf_get]
  split
  · exact digitOf_toNat _ i
  · rfl

/-- Settles O20: after five edges RSP holds the command's computed answer, whose fields are R78's. -/
theorem encCompletesWithItsDigits : Obligations.EncCompletesWithItsDigits := by
  intro n v s ps h1 h4 hl hr
  obtain ⟨t, u, ht, hu, hReached⟩ := exec_enc_reaches n v s ps ⟨h1, h4⟩ hl.le hr
  have hrsp : u.rsp = encResult n v := hReached.rsp hl
  refine ⟨t, u, ht, hu, hReached.phase.trans (if_pos hl), ?_⟩
  rw [hrsp]
  refine ⟨rspStatus_respond .., ?_, rspEpos_respond .., rspZero_respond .., digitFields_encResult_get n v⟩
  rw [encResult, encWord, rspOcnt_respond, count_succ_toNat n (by omega)]

/-- Settles O23: the closed form is what the micro-steps keep (`EncProgress`), STEP being the number of edges. -/
theorem encDigitsInClosedForm : Obligations.EncDigitsInClosedForm := by
  intro n v s ps h1 h4 hl hr
  obtain ⟨t, u, ht, hu, hReached⟩ := exec_enc_reaches n v s ps ⟨h1, h4⟩ hl hr
  have hp : EncProgress n v u := hReached.progress
  refine ⟨t, u, ht, hu, hReached.step ▸ hp.q, fun i hi => ?_⟩
  rw [hp.dig i (hReached.step ▸ hi), digitOf_toNat]
  rfl

/-- Settles O24: a word of 32 bits is below 85^5 and at most 82 × 85^4 + 84 × 85^3 + …, so that nothing is left in Q and the
leading digit is at most 82. -/
theorem encDigitsAreValid : Obligations.EncDigitsAreValid := by
  intro n v s ps h1 h4 hl hr
  obtain ⟨t, u, ht, hu, hReached⟩ := exec_enc_reaches n v s ps ⟨h1, h4⟩ hl.le hr
  have hp : EncProgress n v u := hReached.progress
  have h5 : u.step.toNat = 5 := hReached.step.trans hl
  have hdig := encProgress_dig hp h5
  have hx : (realBytes n v).toNat < 2 ^ 32 := (realBytes n v).isLt
  have hlead : (u.dig.get 0).toNat = (realBytes n v).toNat / 52200625 := by
    rw [hdig, digitsOf_get, digitOf_toNat]
    exact Nat.mod_eq_of_lt (by norm_num; omega)
  refine ⟨t, u, ht, hu, BitVec.eq_of_toNat_eq ?_, fun i => hdig ▸ digitsOf_get_le _ i, hlead, by omega, fun i => ?_⟩
  · rw [hp.q, h5]
    exact Nat.div_eq_of_lt (by norm_num; omega)
  · have hrsp : u.rsp = encResult n v := hReached.rsp hl
    rw [hrsp, digitFields_encResult_get]
    split <;> omega

/-! ### The answer to a command word (R86, R87) -/

theorem realBytes_four (v : GroupWord) : realBytes 4 v = v := by
  rw [realBytes, show (4 : Count).toNat = 4 from rfl, byteMask_four, BitVec.and_allOnes]

/-- Settles O25: all five places are kept, and the Horner sum of the digits of a number below 85^5 is the number. -/
theorem fullGroupDigitsHaveItsValue : Obligations.FullGroupDigitsHaveItsValue := by
  intro v
  have hkept : keptDigits 4 (digitsOf v.toNat) = digitsOf v.toNat := Digits.eq_of_get fun i => by
    rw [keptDigits_get]
    exact if_pos (show i.val ≤ 4 by omega)
  have hv := v.isLt
  rw [result_encode_enc 4 v (by decide), encResult, encWord, digitFields_respond, realBytes_four, hkept, ← hornerSum_five,
    hornerSum_digitsOf _ 5 (by omega) le_rfl]
  exact Nat.div_one _

/-- The digits a host reads from the answer to ENC n: the first n + 1 of the masked value (R87). -/
theorem validDigits_result_enc (n : Count) (v : GroupWord) (hn : 1 ≤ n.toNat ∧ n.toNat ≤ 4) :
    validDigits (result (encode (.enc n v))) = (placeList (digitsOf (realBytes n v).toNat)).take (n.toNat + 1) := by
  rw [result_encode_enc n v hn, encResult, encWord, validDigits_eq_take, rspOcnt_respond, digitFields_respond,
    count_succ_toNat n (by omega), placeList_keptDigits_take]

theorem length_validDigits_result_enc (n : Count) (v : GroupWord) (hn : 1 ≤ n.toNat ∧ n.toNat ≤ 4) :
    (validDigits (result (encode (.enc n v)))).length = n.toNat + 1 := by
  rw [validDigits_result_enc n v hn, List.length_take, placeList_length]
  omega

/-- Settles O26: the tail and its padded group have the same masked value, and the tail's answer keeps fewer of its digits. -/
theorem tailIsThePrefixOfItsPaddedGroup : Obligations.TailIsThePrefixOfItsPaddedGroup := by
  refine ⟨fun n v h1 h3 => ?_, fun v => length_validDigits_result_enc 4 v (by decide)⟩
  have hn : 1 ≤ n.toNat ∧ n.toNat ≤ 4 := ⟨h1, by omega⟩
  refine ⟨?_, length_validDigits_result_enc n v hn⟩
  have hmin : min (n.toNat + 1) ((4 : Count).toNat + 1) = n.toNat + 1 := min_eq_left (show n.toNat + 1 ≤ 5 by omega)
  rw [validDigits_result_enc n v hn, validDigits_result_enc 4 _ (by decide), realBytes_four, List.take_take, hmin, realBytes]

/-! ### Pad bytes (R80) -/

/-- A group is its four bytes (R43). -/
theorem groupWord_eq_of_bytes (v w : GroupWord)
    (h : ∀ j : Nat, j < 4 → v.extractLsb' (24 - 8 * j) 8 = w.extractLsb' (24 - 8 * j) 8) : v = w := by
  apply BitVec.eq_of_getLsbD_eq
  intro i hi
  have hbit := congrArg (BitVec.getLsbD · (i % 8)) (h (3 - i / 8) (by omega))
  have hpos : 24 - 8 * (3 - i / 8) + i % 8 = i := by omega
  simpa [hpos, Nat.mod_lt] using hbit

/-- Masking keeps the n real bytes and puts 0x00 in the place of the others (R12, R80). -/
theorem realBytes_byte (n : Count) (v : GroupWord) (hn : 1 ≤ n.toNat ∧ n.toNat ≤ 4) (j : Nat) (hj : j < 4) :
    (realBytes n v).extractLsb' (24 - 8 * j) 8 = if j < n.toNat then v.extractLsb' (24 - 8 * j) 8 else 0 := by
  apply BitVec.eq_of_getLsbD_eq
  intro i hi
  have hmask : (byteMask n.toNat).getLsbD (24 - 8 * j + i) = decide (j < n.toNat) := by
    rw [byteMask_getLsbD n.toNat _ hn.1 hn.2 (by omega), decide_eq_decide]
    omega
  by_cases hjn : j < n.toNat <;> simp [realBytes, hmask, hjn]

/-- Groups with the same n real bytes have the same masked value (R80). -/
theorem realBytes_congr (n : Count) (v w : GroupWord) (hn : 1 ≤ n.toNat ∧ n.toNat ≤ 4)
    (h : ∀ j : Nat, j < n.toNat → v.extractLsb' (24 - 8 * j) 8 = w.extractLsb' (24 - 8 * j) 8) :
    realBytes n v = realBytes n w := by
  refine groupWord_eq_of_bytes _ _ fun j hj => ?_
  rw [realBytes_byte n v hn j hj, realBytes_byte n w hn j hj]
  split
  next hjn => exact h j hjn
  next => rfl

/-- Settles O27: the data field enters ENC_INIT through the masked value only. -/
theorem encIgnoresPadBytes : Obligations.EncIgnoresPadBytes := by
  intro n v w s h1 h4 hbytes
  have hn : 1 ≤ n.toNat ∧ n.toNat ≤ 4 := ⟨h1, h4⟩
  refine ⟨?_, encInit n v s, exec_enc_of_legal n v s hn, realBytes_byte n v hn, ?_⟩
  · rw [exec_enc_of_legal n v s hn, exec_enc_of_legal n w s hn, encInit, encInit, realBytes_congr n v w hn hbytes]
  · rintro rfl
    exact realBytes_four v

/-! ### ACC (R91) -/

/-- The state with another value in ACC. -/
def withAcc (a : BitVec 33) (s : State) : State := { s with acc := a }

theorem encInit_withAcc (n : Count) (v : GroupWord) (a : BitVec 33) (s : State) :
    encInit n v (withAcc a s) = withAcc a (encInit n v s) := rfl

theorem encEdge_withAcc (i : Fin 5) (a : BitVec 33) (s : State) : encEdge i (withAcc a s) = withAcc a (encEdge i s) := by
  unfold encEdge
  split <;> rfl

/-- The BUSY edges of ENC carry another value in ACC through unchanged, and write nothing of the host's side. -/
theorem runEdges_enc_withAcc (ps : List Pins) (n : Count) (v : GroupWord) (a : BitVec 33) (m : Nat) (s : State)
    (hn : 1 ≤ n.toNat ∧ n.toNat ≤ 4) (hr : noReset ps) (hm : m + ps.length ≤ 5) (h : Reached (.enc n v) m s) :
    ∃ u, runEdges ps s = .next u ∧ runEdges ps (withAcc a s) = .next (withAcc a u)
      ∧ u.acc = s.acc ∧ u.host = s.host ∧ u.drawn = s.drawn := by
  induction ps generalizing m s with
  | nil => exact ⟨s, rfl, rfl, rfl, rfl, rfl⟩
  | cons p ps ih =>
    rw [noReset, List.forall_mem_cons] at hr
    rw [List.length_cons] at hm
    have hm5 : m < 5 := by omega
    have hp : EncProgress n v s := h.progress
    have hc : 1 ≤ s.cnt.toNat ∧ s.cnt.toNat ≤ 4 := hp.cnt ▸ hn
    have he : edge p s = .next (encEdge ⟨m, hm5⟩ s) := edge_enc p s ⟨m, hm5⟩ hr.1 (h.busy hm5) hp.op h.step hc
    have he' : edge p (withAcc a s) = .next (withAcc a (encEdge ⟨m, hm5⟩ s)) := by
      rw [← encEdge_withAcc]
      exact edge_enc p (withAcc a s) ⟨m, hm5⟩ hr.1 (h.busy hm5) hp.op h.step hc
    obtain ⟨t, ht, hReached⟩ := edge_reached p (.enc n v) m s hr.1 ((encCheck_ok_iff n).2 hn) hm5 h
    cases he.symm.trans ht
    obtain ⟨u, hu, hu', hacc, hhost, hdrawn⟩ := ih (m + 1) _ hr.2 (by omega) hReached
    exact ⟨u, (runEdges_cons_next p ps s _ he).trans hu, (runEdges_cons_next p ps _ _ he').trans hu',
      hacc.trans (encEdge_acc ..), hhost.trans (encEdge_host ..), hdrawn.trans (encEdge_drawn ..)⟩

/-- Settles O28: ENC_INIT and every BUSY edge of ENC commute with writing another value to ACC. -/
theorem encLeavesAccAlone : Obligations.EncLeavesAccAlone := by
  intro n v s a ps h1 h4 hl hr
  have hn : 1 ≤ n.toNat ∧ n.toNat ≤ 4 := ⟨h1, h4⟩
  obtain ⟨u, hu, hu', hacc, hhost, hdrawn⟩ := runEdges_enc_withAcc ps n v a 0 (encInit n v s) hn hr (by omega)
    (reached_start (.enc n v) s)
  exact ⟨_, u, _, _, exec_enc_of_legal n v s hn, hu, exec_enc_of_legal n v _ hn, hu', rfl, hacc, rfl, rfl, hhost, hdrawn⟩

end Sys2Proof.Machine
end

section
/-! PROOFS. Family 41_decoder, answers: what DEC makes of a vector of digits, and the two round trips.
An answer is its padded value, cut to k − 1 bytes (`result_dec_of_fits`) or OVERFLOW. An encoded group pads to the last number
that begins with its digits, which has the group's bytes (`result_dec_of_encoded`), and a vector of five digits is that of its
value (`digitsOf_val`), so that full groups and values of 32 bits are in bijection. -/

namespace Sys2Proof.Machine

/-! ### The answer to a DEC command (R93, R101, R102) -/

theorem decWord_of_overflow (k : Count) (V : Nat) (h : 2 ^ 32 - 1 < V) : decWord k V = errorWord .overflow 0 := if_pos h

theorem decWord_of_fits (k : Count) (V : Nat) (h : V ≤ 2 ^ 32 - 1) :
    decWord k V = respond .ok (k - 1) 0 ((BitVec.ofNat 32 V &&& byteMask (k.toNat - 1)).setWidth 35) :=
  if_neg (not_lt.2 h)

section
variable (k : Count) (d : Digits) (hk2 : 2 ≤ k.toNat) (hk5 : k.toNat ≤ 5)
  (hd : ∀ i : Fin 5, i.val < k.toNat → (d.get i).toNat ≤ 84)
include hk2 hk5 hd

theorem result_dec_of_valid : result (encode (.dec k d)) = decWord k (effectiveDigits k d).val :=
  result_encode_dec_of_ok k d ((decCheck_ok_iff k d).2 ⟨hk2, hk5, hd⟩)

theorem result_dec_of_overflow (hV : 2 ^ 32 - 1 < (effectiveDigits k d).val) :
    result (encode (.dec k d)) = errorWord .overflow 0 :=
  (result_dec_of_valid k d hk2 hk5 hd).trans (decWord_of_overflow k _ hV)

theorem result_dec_of_fits (hV : (effectiveDigits k d).val ≤ 2 ^ 32 - 1) :
    result (encode (.dec k d)) =
      respond .ok (k - 1) 0 ((BitVec.ofNat 32 (effectiveDigits k d).val &&& byteMask (k.toNat - 1)).setWidth 35) :=
  (result_dec_of_valid k d hk2 hk5 hd).trans (decWord_of_fits k _ hV)

end

/-- Settles O41: `check` asks of a tail only that its digits are digits. -/
theorem tailsNeedNotBeCanonical : Obligations.TailsNeedNotBeCanonical := by
  refine ⟨fun k d hk2 hk4 hd hV => ?_, by decide⟩
  rw [result_dec_of_fits k d hk2 (by omega) hd hV]
  exact ⟨rspStatus_respond .., rspOcnt_respond .., rspDataField_respond ..⟩

/-! ### Encoded groups decoded (R104 to R106) -/

theorem digitFields_result_enc (n : Count) (v : GroupWord) (hn : 1 ≤ n.toNat ∧ n.toNat ≤ 4) :
    digitFields (result (encode (.enc n v))) = keptDigits n (digitsOf (realBytes n v).toNat) := by
  rw [result_encode_enc n v hn, encResult, encWord, digitFields_respond]

/-- The first n + 1 digits of the answer to ENC n are those of the masked value (R87). -/
theorem encoded_get (n : Count) (v : GroupWord) (hn : 1 ≤ n.toNat ∧ n.toNat ≤ 4) (i : Fin 5) (hi : i.val < n.toNat + 1) :
    (digitFields (result (encode (.enc n v)))).get i = digitOf (realBytes n v).toNat i := by
  rw [digitFields_result_enc n v hn, keptDigits_get, if_pos (Nat.le_of_lt_succ hi), digitsOf_get]

/-- DEC of an encoded group answers the bytes that were encoded, a full group's or a tail's (R104, R105). -/
theorem result_dec_of_encoded (n : Count) (v : GroupWord) (hn : 1 ≤ n.toNat ∧ n.toNat ≤ 4) :
    result (encode (.dec (n + 1) (digitFields (result (encode (.enc n v)))))) =
      respond .ok n 0 ((realBytes n v).setWidth 35) := by
  have hk : (n + 1).toNat = n.toNat + 1 := count_succ_toNat n (by omega)
  obtain ⟨hfit, hbytes⟩ := padded_value_of_encoded n v _ hn (encoded_get n v hn)
  have hvalid : ∀ i : Fin 5, i.val < (n + 1).toNat → ((digitFields (result (encode (.enc n v)))).get i).toNat ≤ 84 :=
    fun i hi => by
      rw [encoded_get n v hn i (hk ▸ hi), ← digitsOf_get]
      exact digitsOf_get_le _ i
  rw [result_dec_of_fits (n + 1) _ (by omega) (by omega) hvalid hfit, BitVec.add_sub_cancel, hk, Nat.add_sub_cancel,
    ← realBytes, hbytes]

/-- Settles O38: the padded digits of a tail have its bytes. -/
theorem tailsRoundTrip : Obligations.TailsRoundTrip := by
  intro n v h1 h3
  rw [result_dec_of_encoded n v ⟨h1, by omega⟩]
  exact ⟨rspStatus_respond .., rspOcnt_respond .., rspDataField_respond ..⟩

/-! ### Full groups (R104) -/

theorem effectiveDigits_five (d : Digits) : effectiveDigits 5 d = d :=
  Digits.eq_of_get fun i => by rw [effectiveDigits_get]; exact if_pos i.isLt

/-- The value of the first m of five digits is what the value of all five has above the other places (R100). -/
theorem hornerSum_eq_val_div (d : Digits) (hd : digitsOk d) (m : Nat) (hm : m ≤ 5) :
    hornerSum d m = d.val / 85 ^ (5 - m) := by
  induction hm using Nat.decreasingInduction with
  | self => rw [hornerSum_five, Nat.sub_self, pow_zero, Nat.div_one]
  | of_succ m hm ih =>
    have hle : (d.get ⟨m, hm⟩).toNat ≤ 84 := hd _
    have hsum : hornerSum d (m + 1) = hornerSum d m * 85 + (d.get ⟨m, hm⟩).toNat := hornerSum_succ d ⟨m, hm⟩
    rw [show 5 - m = 5 - (m + 1) + 1 by omega, pow_succ, ← Nat.div_div_eq_div_mul, ← ih, hsum]
    omega

/-- A vector of five digits is the one of its value (R84, R104). -/
theorem digitsOf_val (d : Digits) (hd : digitsOk d) : digitsOf d.val = d := by
  refine Digits.eq_of_get fun i => BitVec.eq_of_toNat_eq ?_
  have hle : (d.get i).toNat ≤ 84 := hd i
  have hdiv := hornerSum_eq_val_div d hd (i.val + 1) i.isLt
  rw [hornerSum_succ, Nat.add_sub_add_right 4 1 i.val] at hdiv
  rw [digitsOf_get, digitOf_toNat, ← hdiv]
  omega

theorem keptDigits_four (d : Digits) : keptDigits 4 d = d :=
  Digits.eq_of_get fun i => by rw [keptDigits_get]; exact if_pos (Nat.le_of_lt_succ i.isLt)

theorem result_dec_five_of_fits (d : Digits) (hd : digitsOk d) (hV : d.val ≤ 2 ^ 32 - 1) :
    result (encode (.dec 5 d)) = respond .ok 4 0 ((BitVec.ofNat 32 d.val).setWidth 35) := by
  have h := result_dec_of_fits 5 d (by decide) (by decide) (fun i _ => hd i) (by rwa [effectiveDigits_five])
  have hmask : byteMask ((5 : Count).toNat - 1) = BitVec.allOnes 32 := byteMask_four
  rw [effectiveDigits_five, hmask, BitVec.and_allOnes] at h
  exact h

/-- ENC 4 of the value of five digits answers those digits (R104). -/
theorem digitFields_enc_four_val (d : Digits) (hd : digitsOk d) (hV : d.val ≤ 2 ^ 32 - 1) :
    digitFields (result (encode (.enc 4 (BitVec.ofNat 32 d.val)))) = d := by
  have hval : (BitVec.ofNat 32 d.val).toNat = d.val := by rw [BitVec.toNat_ofNat]; omega
  rw [digitFields_result_enc 4 _ (by decide), keptDigits_four, realBytes_four, hval, digitsOf_val d hd]

/-- Five base-85 digits, most significant first, as a number below 85^5. -/
def digitVectorEquiv : (Fin 5 → Fin 85) ≃ Fin (85 ^ 5) := (Fin.revPerm.arrowCongr (.refl _)).trans finFunctionFinEquiv

theorem digitVectorEquiv_val (f : Fin 5 → Fin 85) :
    (digitVectorEquiv f).val = ∑ i : Fin 5, (f i).val * 85 ^ (4 - i.val) := by
  rw [digitVectorEquiv, Equiv.trans_apply, finFunctionFinEquiv_apply]
  refine Fintype.sum_equiv Fin.revPerm _ _ fun i => ?_
  have hrev : 4 - i.rev.val = i.val := by rw [Fin.val_rev]; omega
  rw [Fin.revPerm_apply, hrev]
  rfl

/-- There are 85^5 − 2^32 vectors of digits whose value does not fit (R104). -/
theorem card_overflowing_vectors :
    (Finset.univ.filter fun f : Fin 5 → Fin 85 => 2 ^ 32 - 1 < ∑ i : Fin 5, (f i).val * 85 ^ (4 - i.val)).card
      = 85 ^ 5 - 2 ^ 32 := by
  have hlast : 2 ^ 32 - 1 < 85 ^ 5 := by norm_num
  calc _ = (Finset.Ioi (⟨2 ^ 32 - 1, hlast⟩ : Fin (85 ^ 5))).card :=
        Finset.card_equiv digitVectorEquiv fun f => by
          rw [Finset.mem_filter_univ, Finset.mem_Ioi, Fin.lt_def, digitVectorEquiv_val]
    _ = 85 ^ 5 - 2 ^ 32 := by rw [Fin.card_Ioi]; norm_num

/-- Settles O37: ENC 4 and DEC 5 undo each other on values of 32 bits, and the numbers below 85^5 are the vectors. -/
theorem fullGroupsAreABijection : Obligations.FullGroupsAreABijection := by
  refine ⟨fun v => ?_, fun d hd hV => ?_, fun d hd hV => ?_, card_overflowing_vectors.trans (by norm_num)⟩
  · have h := result_dec_of_encoded 4 v (by decide)
    rw [realBytes_four, show (4 + 1 : Count) = 5 from rfl] at h
    rw [h]
    exact ⟨rspStatus_respond .., rspDataField_respond ..⟩
  · rw [result_dec_five_of_fits d hd hV, rspDataField_respond]
    exact ⟨rspStatus_respond .., digitFields_enc_four_val d hd hV⟩
  · exact result_dec_of_overflow 5 d (by decide) (by decide) (fun i _ => hd i) (by rwa [effectiveDigits_five])

/-! ### Padded values of encoded tails (R106) -/

/-- The padded value of an encoded group is the last number that begins with its digits (R98, R106). -/
theorem padded_encoded_succ (n : Count) (v : GroupWord) (hn : 1 ≤ n.toNat ∧ n.toNat ≤ 4) :
    (effectiveDigits (n + 1) (digitFields (result (encode (.enc n v))))).val + 1
      = ((realBytes n v).toNat / 85 ^ (4 - n.toNat) + 1) * 85 ^ (4 - n.toNat) := by
  have hk : (n + 1).toNat = n.toNat + 1 := count_succ_toNat n (by omega)
  have hx := (realBytes n v).isLt
  have h := val_effectiveDigits_of_leading (n + 1) _ (realBytes n v).toNat (by omega) (by omega)
    fun i hi => encoded_get n v hn i (hk ▸ hi)
  rwa [hk, Nat.add_sub_add_right 4 1 n.toNat] at h

/-- The largest masked value has 0xFF in all its real bytes (R106). -/
theorem realBytes_le (n : Count) (v : GroupWord) (h1 : 1 ≤ n.toNat) (h3 : n.toNat ≤ 3) :
    (realBytes n v).toNat ≤ 2 ^ 32 - 256 ^ (4 - n.toNat) := by
  have hv := v.isLt
  rw [realBytes_toNat n v ⟨h1, by omega⟩]
  generalize n.toNat = m at *
  interval_cases m <;> omega

/-- The padded value grows with the masked value, so that the largest masked value bounds it (R106). -/
theorem padded_encoded_le (n : Count) (v : GroupWord) (h1 : 1 ≤ n.toNat) (h3 : n.toNat ≤ 3) :
    (effectiveDigits (n + 1) (digitFields (result (encode (.enc n v))))).val
      ≤ ((2 ^ 32 - 256 ^ (4 - n.toNat)) / 85 ^ (4 - n.toNat) + 1) * 85 ^ (4 - n.toNat) - 1 := by
  refine Nat.le_sub_one_of_lt (Nat.lt_of_succ_le ?_)
  rw [Nat.succ_eq_add_one, padded_encoded_succ n v ⟨h1, by omega⟩]
  exact Nat.mul_le_mul_right _ (Nat.succ_le_succ (Nat.div_le_div_right (realBytes_le n v h1 h3)))

/-- Settles O39: a number and the last one with its leading digits differ by less than 85^(4−n), which is below 256^(4−n); and
the largest masked values have the largest padded ones. -/
theorem noEncodedTailOverflows : Obligations.NoEncodedTailOverflows := by
  unfold Obligations.NoEncodedTailOverflows
  dsimp only
  refine ⟨fun n v h1 h3 => ?_, fun v => ?_, by decide⟩
  · have hpad := padded_encoded_succ n v ⟨h1, by omega⟩
    have hmax := realBytes_le n v h1 h3
    have hdiv := Nat.div_mul_le_self (realBytes n v).toNat (85 ^ (4 - n.toNat))
    have hlt : 85 ^ (4 - n.toNat) < 256 ^ (4 - n.toNat) := Nat.pow_lt_pow_left (by decide) (by omega)
    have hle : 256 ^ (4 - n.toNat) ≤ 256 ^ 3 := Nat.pow_le_pow_right (by decide) (by omega)
    rw [add_mul, one_mul] at hpad
    rw [← realBytes]
    omega
  · exact ⟨padded_encoded_le 1 v (by decide) (by decide), padded_encoded_le 2 v (by decide) (by decide),
      padded_encoded_le 3 v (by decide) (by decide)⟩

/-! ### The pad digit (R107) -/

/-- The digits of the tail 0x000054 are 0, 0, 2 and 82, and the fifth digit of its padded group is 84. -/
theorem valueWith_000054 (pad : Digit) :
    (padDigitsWith pad (3 + 1) (digitFields (result (encode (.enc 3 0x00005400))))).val = 0x5400 - 84 + pad.toNat := by
  have hdig : digitFields (result (encode (.enc 3 0x00005400))) = { d0 := 0, d1 := 0, d2 := 2, d3 := 82, d4 := 0 } := by
    decide
  have hpad : padDigitsWith pad (3 + 1) { d0 := 0, d1 := 0, d2 := 2, d3 := 82, d4 := 0 }
      = { d0 := 0, d1 := 0, d2 := 2, d3 := 82, d4 := pad } := rfl
  rw [hdig, hpad]
  simp [Digits.val, Config.radix]

/-- Settles O40: the masked value of the tail 0x000054 ends in the digit 84, so that any smaller pad gives a value below it. -/
theorem onlyPadDigit84RoundTrips : Obligations.OnlyPadDigit84RoundTrips := by
  unfold Obligations.OnlyPadDigit84RoundTrips
  dsimp only
  refine ⟨fun _ _ => rfl, fun pad hpad => ⟨3, 0x00005400, by decide, by decide, fun h => ?_⟩, by decide⟩
  have hmasked : (0x00005400 &&& byteMask (3 : Count).toNat : GroupWord).toNat = 0x5400 := by decide
  rw [valueWith_000054] at h
  rw [← h, BitVec.toNat_and, BitVec.toNat_ofNat] at hmasked
  have hle := hmasked.symm.trans_le (Nat.and_le_left.trans (Nat.mod_le _ _))
  omega

end Sys2Proof.Machine
end

section
/-! PROOFS. Family 41_decoder, cycles: what a DEC command does at its accepting edge and at each of its five BUSY edges.
The accepting edge is decided by `check`; every BUSY edge of DEC is one function of the state (`decEdge`), exact because a Horner
step on a value of at most four digits fits ACC. -/

namespace Sys2Proof.Machine

/-! ### The accepting edge (R95 to R98) -/

theorem exec_dec_of_valid (k : Count) (d : Digits) (s : State) (h : (decCheck k d).1 = .ok) :
    exec (.dec k d) s = .next (decInit k d s) :=
  exec_of_ok (.dec k d) s h

theorem exec_dec_of_error (k : Count) (d : Digits) (s : State) (st : Status) (p : Count) (h : decCheck k d = (st, p))
    (hst : st ≠ .ok) : exec (.dec k d) s = .next (answerError st p s) := by
  have hc : checkInstr (.dec k d) = (st, p) := h
  rw [exec_of_error (.dec k d) s (by rwa [hc]), hc]

/-- Settles O29: digits that pass the check start DEC_INIT, which pads them. -/
theorem decStartsAtAcceptance : Obligations.DecStartsAtAcceptance :=
  fun k d s hk2 hk5 hd => ⟨decInit k d s, exec_dec_of_valid k d s ((decCheck_ok_iff k d).2 ⟨hk2, hk5, hd⟩),
    effectiveDigits_get k d, rfl⟩

/-- Settles O32: with k = 1 only the digit at place 0 is checked. -/
theorem decOneDigitIsTruncated : Obligations.DecOneDigitIsTruncated := by
  intro d s hd
  have hvalid : firstInvalid 1 d = none := (firstInvalid_none_iff 1 d).2 fun i hi => by
    rwa [show i = 0 from Fin.ext (Nat.lt_one_iff.1 hi)]
  have hword : errorWord .truncated 0 = 0x4000000000000000 := by decide
  rw [exec_dec_of_error 1 d s .truncated 0 (decCheck_of_valid 1 d (by decide) hvalid) (by decide), answerError, hword]
  rfl

/-- R96's response words. -/
theorem errorWord_invalidDigit (i : Fin 5) :
    errorWord .invalidDigit (BitVec.ofNat 3 i.val) = BitVec.ofNat 64 (0x2000000000000000 + i.val * 2 ^ 55) := by
  revert i
  decide

/-- Settles O31: the check reports the least invalid place below k. -/
theorem decInvalidDigitAtLeastPosition : Obligations.DecInvalidDigitAtLeastPosition := by
  intro k d s i hk1 hk5 hik hi hlow
  have hcheck := decCheck_of_invalid k d i ⟨hk1, hk5⟩ ((firstInvalid_some_iff k d i).2 ⟨hik, hi, hlow⟩)
  rw [exec_dec_of_error k d s _ _ hcheck (by decide), answerError, errorWord_invalidDigit]
  rfl

/-- A well-formed word starts its command, or is answered with an error other than ILLEGAL_CMD (R120). -/
theorem accept_of_wellFormed (c : Word64) (s : State) (i : Instr) (hd : decode c = .ok i) (hw : i.WellFormed) :
    ∃ t, accept c s = .next t ∧ (t.phase = .busy ∨ (t.phase = .done ∧ rspStatus t.rsp ≠ 4)) := by
  by_cases hok : (checkInstr i).1 = .ok
  · refine ⟨start i s, accept_of_ok c s i hd hok, .inl ?_⟩
    cases i <;> rfl
  · have hc := check_of_decode c i hd
    refine ⟨_, accept_of_error c s (by rwa [hc]), .inr ⟨rfl, fun h4 => checkInstr_ne_illegalCmd i hw ?_⟩⟩
    rw [answerError_rsp, rspStatus_errorWord, hc] at h4
    exact code_injective h4

/-- Settles O16: with op = 01 only DEC's row can match, and it does so exactly when [58:35] = 0. -/
theorem decWellFormedness : Obligations.DecWellFormedness := by
  intro c s hop
  split
  next hlegal =>
    obtain ⟨hres, hcnt⟩ := hlegal
    have hm : c &&& decMask = decMatch := (matches_dec_iff c).2 ⟨hop, hres⟩
    exact accept_of_wellFormed c s _ (decode_of_matches_dec c hm) ((wellFormed_dec_iff _ _).2 hcnt)
  next hillegal =>
    refine accept_of_illegalCmd c s (check_of_not_legal c fun hlegal => ?_)
    rcases (decodes_wellFormed_iff c).1 hlegal with ⟨hm, -⟩ | ⟨hm, hcnt⟩
    · exact absurd (hop.symm.trans ((matches_enc_iff c).1 hm).1) (by decide)
    · exact hillegal ⟨((matches_dec_iff c).1 hm).2, hcnt⟩

/-! ### Missing digits (R110) -/

theorem firstInvalid_congr (k : Count) (d e : Digits) (h : ∀ i : Fin 5, i.val < k.toNat → d.get i = e.get i) :
    firstInvalid k d = firstInvalid k e := by
  have hat : invalidAt k d = invalidAt k e := funext fun i => Bool.eq_iff_iff.2 <| by
    rw [invalidAt_iff, invalidAt_iff]
    exact and_congr_right fun hi => by rw [h i hi]
  rw [firstInvalid, firstInvalid, hat]

theorem effectiveDigits_congr (k : Count) (d e : Digits) (h : ∀ i : Fin 5, i.val < k.toNat → d.get i = e.get i) :
    effectiveDigits k d = effectiveDigits k e :=
  Digits.eq_of_get fun i => by
    rw [effectiveDigits_get, effectiveDigits_get]
    split
    next hi => exact h i hi
    next => rfl

/-- Settles O42: neither the check nor DEC_INIT sees more of the digits than those below k. -/
theorem decIgnoresMissingDigits : Obligations.DecIgnoresMissingDigits := by
  refine ⟨fun k d e s h => ?_, by decide⟩
  have hcheck : decCheck k d = decCheck k e := by rw [decCheck, decCheck, firstInvalid_congr k d e h]
  have hinit : decInit k d s = decInit k e s := by rw [decInit, decInit, effectiveDigits_congr k d e h]
  rw [exec, exec, execDec, execDec, hcheck, hinit]

/-! ### One BUSY edge (R99, R101) -/

/-- The state after the BUSY edge of DEC at place i = STEP: the micro-step, and at the fifth DEC_FINISH (R37). -/
def decEdge (i : Fin 5) (s : State) : State :=
  if i = 4 then decFinish (countStep (accumulate i s)) else countStep (accumulate i s)

theorem edge_dec (p : Pins) (s : State) (i : Fin 5) (hr : p.rst = false) (hs : s.phase = .busy) (ho : s.op = 1)
    (hi : s.step.toNat = i.val) (hc : 2 ≤ s.cnt.toNat ∧ s.cnt.toNat ≤ 5) (hv : hornerValue i s < 2 ^ 33) :
    edge p s = .next (decEdge i s) := by
  rw [edge_busy p s hr hs, busyEdge_dec s i ho hi hv, decEdge]
  split
  · exact finish_dec (countStep (accumulate i s)) ho hc
  · rfl

@[simp] theorem decEdge_phase (i : Fin 5) (s : State) : (decEdge i s).phase = if i = 4 then .done else s.phase := by
  unfold decEdge; split <;> rfl
@[simp] theorem decEdge_op (i : Fin 5) (s : State) : (decEdge i s).op = s.op := by unfold decEdge; split <;> rfl
@[simp] theorem decEdge_cnt (i : Fin 5) (s : State) : (decEdge i s).cnt = s.cnt := by unfold decEdge; split <;> rfl
@[simp] theorem decEdge_step (i : Fin 5) (s : State) : (decEdge i s).step = s.step + 1 := by
  unfold decEdge; split <;> rfl
@[simp] theorem decEdge_q (i : Fin 5) (s : State) : (decEdge i s).q = s.q := by unfold decEdge; split <;> rfl
@[simp] theorem decEdge_acc (i : Fin 5) (s : State) : (decEdge i s).acc = (accumulate i s).acc := by
  unfold decEdge; split <;> rfl
@[simp] theorem decEdge_dig (i : Fin 5) (s : State) : (decEdge i s).dig = s.dig := by unfold decEdge; split <;> rfl
@[simp] theorem decEdge_rsp (i : Fin 5) (s : State) :
    (decEdge i s).rsp = if i = 4 then decWord s.cnt (decEdge i s).acc.toNat else s.rsp := by
  unfold decEdge; split <;> rfl
@[simp] theorem decEdge_host (i : Fin 5) (s : State) : (decEdge i s).host = s.host := by unfold decEdge; split <;> rfl
@[simp] theorem decEdge_drawn (i : Fin 5) (s : State) : (decEdge i s).drawn = s.drawn := by unfold decEdge; split <;> rfl

/-- Where the Horner step fits, ACC is its exact value (R99). -/
theorem decEdge_acc_toNat (i : Fin 5) (s : State) (hv : hornerValue i s < 2 ^ 33) :
    (decEdge i s).acc.toNat = s.acc.toNat * 85 + (s.dig.get i).toNat := by
  rw [decEdge_acc, accumulate_acc, BitVec.toNat_ofNat, Nat.mod_eq_of_lt hv, hornerValue, Config.radix]

/-- The invariant's bound on ACC leaves room for one more digit (R100). -/
theorem hornerValue_lt_of_stateInv (i : Fin 5) (s : State) (h : StateInv s) (hs : s.phase = .busy) (ho : s.op = 1)
    (hi : s.step.toNat = i.val) : hornerValue i s < 2 ^ 33 := by
  obtain ⟨-, -, hdig, -, hacc, -⟩ := h
  have hle : hornerValue i s ≤ 85 ^ (i.val + 1) - 1 := horner_le_pow _ _ _ (hi ▸ hacc hs ho) (hdig i)
  have hpow := pow85_le (i.val + 1) i.isLt
  omega

/-- In every state of the invariant a BUSY edge with OP = 1 is a `decEdge`, at a place that STEP gives. -/
theorem edge_dec_of_stateInv (p : Pins) (s : State) (hr : p.rst = false) (hs : s.phase = .busy) (ho : s.op = 1)
    (h : StateInv s) :
    ∃ i : Fin 5, s.step.toNat = i.val ∧ hornerValue i s < 2 ^ 33 ∧ edge p s = .next (decEdge i s) := by
  have hinv := h
  obtain ⟨-, hbusy, -⟩ := h
  obtain ⟨hstep, hfits⟩ := hbusy hs
  have hi : s.step.toNat = (⟨s.step.toNat, Nat.lt_succ_of_le hstep⟩ : Fin 5).val := rfl
  have hv := hornerValue_lt_of_stateInv _ s hinv hs ho hi
  exact ⟨_, hi, hv, edge_dec p s _ hr hs ho hi ((cntFits_dec_iff s.cnt).1 (ho ▸ hfits)) hv⟩

/-- Settles O33: each register after the edge, read off `decEdge`. -/
theorem decMicroStep : Obligations.DecMicroStep := by
  intro p s hr hs ho hinv
  obtain ⟨i, hi, hv, he⟩ := edge_dec_of_stateInv p s hr hs ho hinv
  have hlast := step_eq_four_iff s.step i hi
  refine ⟨decEdge i s, he, fun j hj => ?_, ?_, ?_, fun hne => ?_, decEdge_dig i s, decEdge_q i s, decEdge_op i s,
    decEdge_cnt i s, decEdge_host i s, decEdge_drawn i s⟩
  · rw [show j = i from Fin.ext (hj.trans hi), decEdge_acc_toNat i s hv]
  · rw [decEdge_step, count_succ_toNat _ (by omega)]
  · rw [decEdge_phase, hs]
    simp only [hlast]
  · rw [decEdge_rsp, if_neg (mt hlast.2 hne)]

theorem errorWord_overflow : errorWord .overflow 0 = 0x6000000000000000 := by decide

/-- Settles O34: at place 4 the response is built from the ACC the edge leaves, and its word is R101's field by field. -/
theorem decFinishBuildsResponse : Obligations.DecFinishBuildsResponse := by
  intro p s hr hs ho hstep hinv
  obtain ⟨i, hi, -, he⟩ := edge_dec_of_stateInv p s hr hs ho hinv
  have h4 : i = 4 := (step_eq_four_iff s.step i hi).1 hstep
  have hrsp : (decEdge i s).rsp = decWord s.cnt (decEdge i s).acc.toNat := by rw [decEdge_rsp, if_pos h4]
  refine ⟨decEdge i s, he, by rw [decEdge_phase, if_pos h4], hrsp.trans ?_⟩
  split
  next hov => rw [decWord_of_overflow _ _ hov, errorWord_overflow]
  next hfit =>
    have hlow : BitVec.ofNat 32 (decEdge i s).acc.toNat = (decEdge i s).acc.extractLsb 31 0 := by
      rw [BitVec.ofNat_toNat, BitVec.setWidth_eq_extractLsb' (by decide)]
      rfl
    rw [decWord_of_fits _ _ (not_lt.1 hfit), hlow]
    rfl

/-! ### The five BUSY edges (R100, R102, R103) -/

/-- The command starts in every state, and m ≤ 5 edges without a reset make m micro-steps, whatever else the host drives. -/
theorem exec_dec_reaches (k : Count) (d : Digits) (s : State) (ps : List Pins) (h : (decCheck k d).1 = .ok)
    (hl : ps.length ≤ 5) (hr : noReset ps) :
    ∃ u, exec (.dec k d) s = .next (decInit k d s) ∧ runEdges ps (decInit k d s) = .next u
      ∧ Reached (.dec k d) ps.length u := by
  obtain ⟨u, hu, hReached⟩ := runEdges_reached ps (.dec k d) 0 (decInit k d s) hr h (by omega) (reached_start (.dec k d) s)
  rw [Nat.zero_add] at hReached
  exact ⟨u, exec_dec_of_valid k d s h, hu, hReached⟩

/-- Settles O35: the Horner sum is what the micro-steps keep (`DecProgress`), STEP being the number of edges. -/
theorem decHornerSums : Obligations.DecHornerSums := by
  intro k d s ps hk2 hk5 hd hl hr
  obtain ⟨u, ht, hu, hReached⟩ := exec_dec_reaches k d s ps ((decCheck_ok_iff k d).2 ⟨hk2, hk5, hd⟩) hl hr
  have hp : DecProgress k d u := hReached.progress
  have hacc : u.acc.toNat = hornerSum (effectiveDigits k d) ps.length := hReached.step ▸ hp.acc
  have hle := hornerSum_le _ (digitsOk_effectiveDigits k d hd) ps.length hl
  have hpow := pow85_le ps.length hl
  refine ⟨_, u, ht, hu, hacc, hacc ▸ hle, by omega, fun h5 => ?_⟩
  rw [hacc, h5, hornerSum_five]

theorem val_effectiveDigits (k : Count) (d : Digits) : (effectiveDigits k d).val =
    ∑ i : Fin 5, (if i.val < k.toNat then (d.get i).toNat else 84) * 85 ^ (4 - i.val) := by
  rw [Digits.val_eq_sum]
  refine Finset.sum_congr rfl fun i _ => ?_
  rw [effectiveDigits_get, apply_ite BitVec.toNat]
  rfl

/-- Byte j of a group as a number (R43). -/
theorem byte_toNat (x : GroupWord) (j : Nat) (hj : j < 4) :
    (x.extractLsb' (24 - 8 * j) 8).toNat = x.toNat / 256 ^ (3 - j) % 256 := by
  have hpow : 2 ^ (24 - 8 * j) = 256 ^ (3 - j) := by
    rw [show 24 - 8 * j = 8 * (3 - j) by omega, pow_mul]
    rfl
  rw [BitVec.extractLsb'_toNat, Nat.shiftRight_eq_div_pow, hpow]

/-- A group leaves the top three bits of a payload 0 (R70). -/
theorem extractLsb_setWidth_group (x : GroupWord) : (x.setWidth 35 : Payload).extractLsb 34 32 = 0#3 := by
  apply BitVec.eq_of_getLsbD_eq
  intro i hi
  simp

/-- The bytes that DEC k keeps of a value that fits (R102). -/
theorem decWord_byte (k : Count) (V : Nat) (hk2 : 2 ≤ k.toNat) (hk5 : k.toNat ≤ 5) (hV : V ≤ 2 ^ 32 - 1) (j : Nat)
    (hj : j < 4) : ((rspDataField (decWord k V)).extractLsb' (24 - 8 * j) 8).toNat =
      if j < k.toNat - 1 then V / 256 ^ (3 - j) % 256 else 0 := by
  have hpred := count_pred_toNat k (by omega)
  have hfit : (BitVec.ofNat 32 V).toNat = V := by rw [BitVec.toNat_ofNat]; omega
  rw [decWord_of_fits k V hV, rspDataField_respond, ← hpred, ← realBytes, realBytes_byte _ _ (by omega) j hj]
  split
  · rw [byte_toNat _ j hj, hfit]
  · rfl

/-- Settles O30: after five edges RSP holds the command's computed answer, whose fields are R93's. -/
theorem decCompletesWithItsBytes : Obligations.DecCompletesWithItsBytes := by
  intro k d s ps hk2 hk5 hd hl hr
  obtain ⟨u, ht, hu, hReached⟩ := exec_dec_reaches k d s ps ((decCheck_ok_iff k d).2 ⟨hk2, hk5, hd⟩) hl.le hr
  have hrsp : u.rsp = decWord k (effectiveDigits k d).val := hReached.rsp hl
  refine ⟨_, u, ht, hu, hReached.phase.trans (if_pos hl), ?_⟩
  rw [hrsp, ← val_effectiveDigits]
  split
  next hov => rw [decWord_of_overflow k _ hov, errorWord_overflow]
  next hfit =>
    have hV := not_lt.1 hfit
    refine ⟨?_, ?_, ?_, ?_, ?_, decWord_byte k _ hk2 hk5 hV⟩ <;> rw [decWord_of_fits k _ hV]
    · exact rspStatus_respond ..
    · rw [rspOcnt_respond, count_pred_toNat k (by omega)]
    · exact rspEpos_respond ..
    · exact rspZero_respond ..
    · rw [rspPayload_respond, extractLsb_setWidth_group]

/-! ### Q (R111) -/

/-- The state with another value in Q. -/
def withQ (x : BitVec 32) (s : State) : State := { s with q := x }

theorem decEdge_withQ (i : Fin 5) (x : BitVec 32) (s : State) : decEdge i (withQ x s) = withQ x (decEdge i s) := by
  unfold decEdge
  split <;> rfl

/-- A BUSY edge of a DEC command that passed its check carries another value in Q through unchanged, and writes neither Q nor
the host's side. -/
theorem edge_dec_withQ (p : Pins) (k : Count) (d : Digits) (x : BitVec 32) (m : Nat) (s : State) (hr : p.rst = false)
    (hc : (decCheck k d).1 = .ok) (hm : m < 5) (h : Reached (.dec k d) m s) :
    ∃ t, edge p s = .next t ∧ edge p (withQ x s) = .next (withQ x t) ∧ Reached (.dec k d) (m + 1) t
      ∧ t.q = s.q ∧ t.host = s.host ∧ t.drawn = s.drawn := by
  obtain ⟨hk2, hk5, hd⟩ := (decCheck_ok_iff k d).1 hc
  have hp : DecProgress k d s := h.progress
  have hcnt : 2 ≤ s.cnt.toNat ∧ s.cnt.toNat ≤ 5 := hp.cnt ▸ ⟨hk2, hk5⟩
  have hv : hornerValue ⟨m, hm⟩ s < 2 ^ 33 := by
    rw [hornerValue_of_decProgress hp ⟨m, hm⟩ h.step]
    exact hornerSum_lt_acc _ (digitsOk_effectiveDigits k d hd) ⟨m, hm⟩
  have he := edge_dec p s ⟨m, hm⟩ hr (h.busy hm) hp.op h.step hcnt hv
  have he' := edge_dec p (withQ x s) ⟨m, hm⟩ hr (h.busy hm) hp.op h.step hcnt hv
  obtain ⟨t, ht, hReached⟩ := edge_reached p (.dec k d) m s hr hc hm h
  cases he.symm.trans ht
  exact ⟨_, he, decEdge_withQ _ x s ▸ he', hReached, decEdge_q .., decEdge_host .., decEdge_drawn ..⟩

theorem runEdges_dec_withQ (ps : List Pins) (k : Count) (d : Digits) (x : BitVec 32) (m : Nat) (s : State)
    (hr : noReset ps) (hc : (decCheck k d).1 = .ok) (hm : m + ps.length ≤ 5) (h : Reached (.dec k d) m s) :
    ∃ u, runEdges ps s = .next u ∧ runEdges ps (withQ x s) = .next (withQ x u)
      ∧ u.q = s.q ∧ u.host = s.host ∧ u.drawn = s.drawn := by
  induction ps generalizing m s with
  | nil => exact ⟨s, rfl, rfl, rfl, rfl, rfl⟩
  | cons p ps ih =>
    rw [noReset, List.forall_mem_cons] at hr
    rw [List.length_cons] at hm
    obtain ⟨t, he, he', hReached, hq, hhost, hdrawn⟩ := edge_dec_withQ p k d x m s hr.1 hc (by omega) h
    obtain ⟨u, hu, hu', hq', hhost', hdrawn'⟩ := ih (m + 1) t hr.2 (by omega) hReached
    exact ⟨u, (runEdges_cons_next p ps s t he).trans hu, (runEdges_cons_next p ps _ _ he').trans hu',
      hq'.trans hq, hhost'.trans hhost, hdrawn'.trans hdrawn⟩

/-- Settles O43: DEC_INIT and every BUSY edge of DEC commute with writing another value to Q. -/
theorem decLeavesQAlone : Obligations.DecLeavesQAlone := by
  intro k d s x ps hk2 hk5 hd hl hr
  have hc : (decCheck k d).1 = .ok := (decCheck_ok_iff k d).2 ⟨hk2, hk5, hd⟩
  obtain ⟨u, hu, hu', hq, hhost, hdrawn⟩ := runEdges_dec_withQ ps k d x 0 (decInit k d s) hr hc (by omega)
    (reached_start (.dec k d) s)
  exact ⟨_, u, _, _, exec_dec_of_valid k d s hc, hu, exec_dec_of_valid k d _ hc, hu', rfl, hq, rfl, rfl, hhost, hdrawn⟩

end Sys2Proof.Machine
end

section
/-! PROOFS. Family 60_exceptions: the words of the errors, what the check finds and in which order, what an error leaves
behind, and that no step stops. The check never finds OVERFLOW, so that a word answered with it has passed the check
(`check_ok_of_overflow`) and computes. -/

namespace Sys2Proof.Machine

/-! ### The words of the errors (R121) -/

/-- Settles O44: the words by evaluation, the position by `check_position`, and the fields of every error by `responseOk`. -/
theorem errorResponseWords : Obligations.ErrorResponseWords := by
  refine ⟨fun _ _ => rfl, errorWord_illegalCmd, by decide, errorWord_overflow, fun p hp => ?_, by decide, result_of_error,
    fun c => (check_position c).2, fun c hs => ?_⟩
  · have hword := errorWord_invalidDigit ⟨p.toNat, Nat.lt_succ_of_le hp⟩
    rwa [BitVec.ofNat_toNat, BitVec.setWidth_eq] at hword
  · obtain ⟨-, -, -, -, herror, -⟩ := responseOk_result c
    exact herror hs

/-! ### The order of the check (R120) -/

theorem encCheck_eq (n : Count) :
    encCheck n = if ¬ (1 ≤ n.toNat ∧ n.toNat ≤ 4) then (.illegalCmd, 0) else (.ok, 0) := (ite_not ..).symm

theorem find?_cons_eq_ite {α : Type} (p : α → Bool) (a : α) (as : List α) :
    (a :: as).find? p = if p a then some a else as.find? p := by
  cases h : p a <;> simp [h]

/-- The digits are looked at from place 0 up (R96, R120). -/
theorem firstInvalid_eq (k : Count) (d : Digits) :
    firstInvalid k d =
      if invalidAt k d 0 then some 0
      else if invalidAt k d 1 then some 1
      else if invalidAt k d 2 then some 2
      else if invalidAt k d 3 then some 3
      else if invalidAt k d 4 then some 4
      else none := by
  simp only [firstInvalid, places, find?_cons_eq_ite, List.find?_nil]

/-- The check of a DEC command as R120 writes it: the count, the digits from place 0, then k = 1. -/
theorem decCheck_eq (k : Count) (d : Digits) :
    decCheck k d =
      if ¬ (1 ≤ k.toNat ∧ k.toNat ≤ 5) then (.illegalCmd, 0)
      else if 84 < d.d0.toNat then (.invalidDigit, 0)
      else if 2 ≤ k.toNat ∧ 84 < d.d1.toNat then (.invalidDigit, 1)
      else if 3 ≤ k.toNat ∧ 84 < d.d2.toNat then (.invalidDigit, 2)
      else if 4 ≤ k.toNat ∧ 84 < d.d3.toNat then (.invalidDigit, 3)
      else if 5 ≤ k.toNat ∧ 84 < d.d4.toNat then (.invalidDigit, 4)
      else if k.toNat = 1 then (.truncated, 0)
      else (.ok, 0) := by
  by_cases hk : 1 ≤ k.toNat ∧ k.toNat ≤ 5
  · have h0 : invalidAt k d 0 = true ↔ 84 < d.d0.toNat := (invalidAt_iff k d 0).trans (and_iff_right hk.1)
    have h1 : invalidAt k d 1 = true ↔ 2 ≤ k.toNat ∧ 84 < d.d1.toNat := invalidAt_iff k d 1
    have h2 : invalidAt k d 2 = true ↔ 3 ≤ k.toNat ∧ 84 < d.d2.toNat := invalidAt_iff k d 2
    have h3 : invalidAt k d 3 = true ↔ 4 ≤ k.toNat ∧ 84 < d.d3.toNat := invalidAt_iff k d 3
    have h4 : invalidAt k d 4 = true ↔ 5 ≤ k.toNat ∧ 84 < d.d4.toNat := invalidAt_iff k d 4
    simp only [decCheck, if_pos hk, if_neg (not_not.2 hk), firstInvalid_eq, h0, h1, h2, h3, h4, count_eq_one_iff]
    split_ifs <;> rfl
  · rw [decCheck_of_bad k d hk, if_pos hk]

/-- A word whose reserved bits are not 0 for its op, or whose op is 10 or 11, is of no row (R61, R71). -/
theorem check_of_no_match (c : Word64) (henc : c &&& encMask ≠ encMatch) (hdec : c &&& decMask ≠ decMatch) :
    check c = (.illegalCmd, 0) := by
  obtain ⟨e, he⟩ := decode_of_no_match c henc hdec
  exact check_of_decode_error c e he

theorem check_of_op_enc (c : Word64) (hop : c.extractLsb 63 62 = 0#2) :
    check c = if c.extractLsb 58 32 ≠ 0 then (.illegalCmd, 0) else encCheck (cmdCnt c) := by
  split
  next hres =>
    refine check_of_no_match c (fun hm => hres ((matches_enc_iff c).1 hm).2) fun hm => ?_
    exact absurd (hop.symm.trans ((matches_dec_iff c).1 hm).1) (by decide)
  next hres =>
    exact check_of_decode c _ (decode_of_matches_enc c ((matches_enc_iff c).2 ⟨hop, not_not.1 hres⟩))

theorem check_of_op_dec (c : Word64) (hop : c.extractLsb 63 62 = 1#2) :
    check c = if c.extractLsb 58 35 ≠ 0 then (.illegalCmd, 0) else decCheck (cmdCnt c) (digitFields c) := by
  split
  next hres =>
    refine check_of_no_match c (fun hm => ?_) fun hm => hres ((matches_dec_iff c).1 hm).2
    exact absurd (hop.symm.trans ((matches_enc_iff c).1 hm).1) (by decide)
  next hres =>
    exact check_of_decode c _ (decode_of_matches_dec c ((matches_dec_iff c).2 ⟨hop, not_not.1 hres⟩))

theorem check_of_op_reserved (c : Word64) (h0 : c.extractLsb 63 62 ≠ 0#2) (h1 : c.extractLsb 63 62 ≠ 1#2) :
    check c = (.illegalCmd, 0) :=
  check_of_no_match c (fun hm => h0 ((matches_enc_iff c).1 hm).1) fun hm => h1 ((matches_dec_iff c).1 hm).1

/-! ### OVERFLOW (R117, R120) -/

theorem checkInstr_ne_overflow (i : Instr) : (checkInstr i).1 ≠ .overflow := by
  cases i with
  | enc n v =>
    rw [checkInstr, encCheck_eq]
    split_ifs <;> simp
  | dec k d =>
    rw [checkInstr, decCheck_eq]
    split_ifs <;> simp

/-- OVERFLOW is decided after the computation, never by the check (R120). -/
theorem check_ne_overflow (c : Word64) : (check c).1 ≠ .overflow := by
  cases hd : decode c with
  | ok i => exact check_of_decode c i hd ▸ checkInstr_ne_overflow i
  | error e => simp [check_of_decode_error c e hd]

theorem check_ok_of_overflow (c : Word64) (h : rspStatus (result c) = Status.overflow.code) : (check c).1 = .ok := by
  by_contra hc
  rw [result_of_error c hc, rspStatus_errorWord] at h
  exact check_ne_overflow c (code_injective h)

theorem rspStatus_decWord_overflow_iff (k : Count) (V : Nat) :
    rspStatus (decWord k V) = Status.overflow.code ↔ 2 ^ 32 - 1 < V := by
  by_cases hV : 2 ^ 32 - 1 < V
  · simp only [decWord_of_overflow k V hV, rspStatus_errorWord, hV]
  · rw [decWord_of_fits k V (not_lt.1 hV), rspStatus_respond]
    exact iff_of_false (by decide) hV

/-- Settles O36: a word answered OVERFLOW has passed the check, so that it is the word of an ENC command, which is answered
OK, or of a DEC command of valid digits, which is answered by its padded value. -/
theorem overflowExactlyAbove32Bits : Obligations.OverflowExactlyAbove32Bits := by
  intro c
  constructor
  · intro h
    obtain ⟨i, hd, hi⟩ := check_ok_decodes c (check_ok_of_overflow c h)
    rw [result_of_ok c i hd hi] at h
    cases i with
    | enc n v =>
      rw [computed, encResult, encWord, rspStatus_respond] at h
      exact absurd (code_injective h) (by decide)
    | dec k d =>
      obtain ⟨hk2, hk5, hvalid⟩ := (decCheck_ok_iff k d).1 hi
      exact ⟨k, d, (encode_of_decode c _ hd).symm, hk2, hk5, hvalid, (rspStatus_decWord_overflow_iff k _).1 h⟩
  · rintro ⟨k, d, rfl, hk2, hk5, hvalid, hV⟩
    rw [result_dec_of_overflow k d hk2 hk5 hvalid hV, rspStatus_errorWord]

/-- Settles O17: each op's words by the check of its row, which is R120's chain; and OVERFLOW is not among what it finds. -/
theorem checkFollowsItsPriority : Obligations.CheckFollowsItsPriority := by
  refine ⟨fun c => ?_, fun c hc => ?_, check_ok_of_overflow⟩
  · intro op n d
    by_cases h0 : op = 0
    · rw [if_pos h0, check_of_op_enc c (BitVec.eq_of_toNat_eq h0), encCheck_eq, ← ite_or]
      rfl
    · rw [if_neg h0]
      by_cases h1 : op = 1
      · rw [if_pos h1, check_of_op_dec c (BitVec.eq_of_toNat_eq h1), decCheck_eq, ← ite_or]
        rfl
      · rw [if_neg h1]
        exact check_of_op_reserved c (fun h => h0 (congrArg BitVec.toNat h)) fun h => h1 (congrArg BitVec.toNat h)
  · rw [result_of_error c hc]
    exact ⟨rspStatus_errorWord .., rspEpos_errorWord ..⟩

/-! ### What follows an error (R123) -/

/-- A word that passes the check takes a BUSY edge per micro-step, in any state and whatever else the host drives (R37). -/
theorem accept_of_check_ok (c : Word64) (s : State) (ps : List Pins) (hc : (check c).1 = .ok) (hl : ps.length ≤ 5)
    (hr : noReset ps) :
    ∃ t u, accept c s = .next t ∧ t.phase = .busy ∧ runEdges ps t = .next u
      ∧ u.phase = if ps.length = 5 then .done else .busy := by
  obtain ⟨i, hd, hi⟩ := check_ok_decodes c hc
  have hstart := reached_start i s
  obtain ⟨u, hu, hReached⟩ := runEdges_reached ps i 0 (start i s) hr hi (by omega) hstart
  rw [Nat.zero_add] at hReached
  exact ⟨start i s, u, accept_of_ok c s i hd hi, hstart.busy (by decide), hu, hReached.phase⟩

/-- Settles O46: the check's errors by `answerError`, an OVERFLOW because its word has passed the check, and the last because
no host can tell two states in IDLE apart. -/
theorem errorsLeaveNoTrace : Obligations.ErrorsLeaveNoTrace := by
  refine ⟨fun c s hc => ?_, fun c s ps hword hl hr => ?_, fun ps s hs => transfers_alike ps (.idle hs rfl)⟩
  · rw [accept_of_error c s hc, result_of_error c hc]
    rfl
  · have hc := check_ok_of_overflow c (by rw [hword, rspStatus_errorWord])
    exact accept_of_check_ok c s ps hc hl hr

/-! ### No step stops (R113) -/

/-- In every state of the invariant a BUSY edge with OP = 0 is an `encEdge`, at the place that STEP gives. -/
theorem edge_enc_of_stateInv (p : Pins) (s : State) (hr : p.rst = false) (hs : s.phase = .busy) (ho : s.op = 0)
    (h : StateInv s) : ∃ i : Fin 5, s.step.toNat = i.val ∧ edge p s = .next (encEdge i s) := by
  obtain ⟨-, hbusy, -⟩ := h
  obtain ⟨hstep, hfits⟩ := hbusy hs
  exact ⟨⟨s.step.toNat, Nat.lt_succ_of_le hstep⟩, rfl,
    edge_enc p s _ hr hs ho rfl ((cntFits_enc_iff s.cnt).1 (ho ▸ hfits))⟩

/-- In every state of the invariant an edge answers a next state, whatever the host drives. -/
theorem edge_answers_of_stateInv (p : Pins) (s : State) (h : StateInv s) : ∃ t, edge p s = .next t := by
  cases hr : p.rst with
  | true => exact ⟨_, edge_reset p s hr⟩
  | false =>
    cases hs : s.phase with
    | idle =>
      obtain ⟨t, ht, -⟩ := edge_owes p [] s (.nothing hs)
      exact ⟨t, ht⟩
    | busy =>
      rcases op_zero_or_one s.op with ho | ho
      · obtain ⟨i, -, he⟩ := edge_enc_of_stateInv p s hr hs ho h
        exact ⟨_, he⟩
      · obtain ⟨i, -, -, he⟩ := edge_dec_of_stateInv p s hr hs ho h
        exact ⟨_, he⟩
    | done =>
      cases hq : p.rspReady with
      | false => exact ⟨_, edge_done_held p s hr hs hq⟩
      | true => exact ⟨_, edge_done_taken p s hr hs hq⟩

theorem exec_answers (i : Instr) (s : State) : ∃ t, exec i s = .next t := by
  by_cases hi : (checkInstr i).1 = .ok
  · exact ⟨_, exec_of_ok i s hi⟩
  · exact ⟨_, exec_of_error i s hi⟩

/-- Settles O51: a step is an edge of the state whose pins have been taken, which is in the invariant too. -/
theorem noStepStops : Obligations.NoStepStops :=
  ⟨fun s h => edge_answers_of_stateInv (pinsNow s) (advance s) ((stateInv_advance s).2 h), exec_answers⟩

end Sys2Proof.Machine
end

section
/-! PROOFS. Family 70_reset_and_hazards: a reset edge, a response that waits, and at which edges a command and its response
transfer. -/

namespace Sys2Proof.Machine

/-! ### A reset edge (R130, R131) -/

/-- While `rst` = 1 no command transfers (R131). -/
theorem cmdTransfers_of_reset (p : Pins) (s : State) (h : p.rst = true) : cmdTransfers p s = false := by
  simp [cmdTransfers, h]

/-- While `rst` = 1 no response transfers (R131). -/
theorem rspTransfers_of_reset (p : Pins) (s : State) (h : p.rst = true) : rspTransfers p s = false := by
  simp [rspTransfers, h]

/-- What a host sees after a reset edge is what it sees from the state the edge leaves. -/
theorem transfers_cons_reset (p : Pins) (ps : List Pins) (s : State) (h : p.rst = true) :
    accepted (p :: ps) s = accepted ps (applyReset s) ∧ responses (p :: ps) s = responses ps (applyReset s) := by
  have he := edge_reset p s h
  rw [accepted_cons_next p ps s _ he, responses_cons_next p ps s _ he, cmdTransfers_of_reset p s h,
    rspTransfers_of_reset p s h]
  exact ⟨rfl, rfl⟩

/-- Settles O2: the state a reset edge leaves and `State.reset` are both in IDLE, and no host can tell two such states apart. -/
theorem resetDropsCommandInFlight : Obligations.ResetDropsCommandInFlight := by
  unfold Obligations.ResetDropsCommandInFlight
  intro p ps s hp
  obtain ⟨ha, hr⟩ := transfers_cons_reset p ps s hp
  obtain ⟨ha', hr'⟩ := transfers_alike ps (.idle (applyReset_phase s) (rfl : State.reset.phase = .idle))
  exact ⟨⟨_, edge_reset p s hp, rfl⟩, ha.trans ha', hr.trans hr'⟩

theorem applyReset_applyReset (s : State) : applyReset (applyReset s) = applyReset s := rfl

/-- Further reset edges change nothing (R131). -/
theorem runEdges_applyReset (ps : List Pins) (s : State) (h : ∀ p ∈ ps, p.rst = true) :
    runEdges ps (applyReset s) = .next (applyReset s) := by
  induction ps with
  | nil => rfl
  | cons p ps ih =>
    rw [List.forall_mem_cons] at h
    rw [runEdges_cons_next p ps _ _ (edge_reset p _ h.1), applyReset_applyReset]
    exact ih h.2

/-- Settles O3: both handshakes have `rst` = 0 as a condition, and every reset edge is `applyReset`, which is idempotent. -/
theorem heldResetIsOneReset : Obligations.HeldResetIsOneReset := by
  unfold Obligations.HeldResetIsOneReset
  intro p s hp
  have he := edge_reset p s hp
  refine ⟨by simp [cmdReady, hp], by simp [rspValid, hp], cmdTransfers_of_reset p s hp, rspTransfers_of_reset p s hp,
    fun p' hp' => (edge_reset p' s hp').trans he.symm, fun ps hps => ?_⟩
  rw [runEdges_cons_next p ps s _ he, he]
  exact runEdges_applyReset ps s hps

/-! ### A response that waits, and the edge that takes it (R138, R142) -/

/-- Settles O9: without `rsp_ready` and without a reset the state is held, and either of them leads to IDLE. -/
theorem untakenResponseWaitsForEver : Obligations.UntakenResponseWaitsForEver := by
  unfold Obligations.UntakenResponseWaitsForEver
  intro s hs
  refine ⟨fun ps hps => ⟨?_, (rspValid_iff false s).2 ⟨hs, rfl⟩⟩, fun p hp => ?_⟩
  · exact runEdges_done_held ps s (fun p hp => (hps p hp).1) (fun p hp => (hps p hp).2) hs
  · cases hr : p.rst with
    | true => exact ⟨_, edge_reset p s hr, rfl⟩
    | false => exact ⟨_, edge_done_taken p s hr hs (hp.resolve_left (by simp [hr])), rfl⟩

/-- Settles O8: the response transfers in DONE, where no command does, and its edge leaves IDLE, where one does. -/
theorem noCommandAtAResponseEdge : Obligations.NoCommandAtAResponseEdge := by
  unfold Obligations.NoCommandAtAResponseEdge
  intro p p' s hp
  have hs := ((rspTransfers_iff p s).1 hp).2.2
  exact ⟨cmdTransfers_eq_false p s (by simp [hs]), fun hr hv =>
    ⟨_, edge_of_rspTransfers p s hp, (cmdTransfers_iff p' _).2 ⟨hr, hv, rfl⟩⟩⟩

/-! ### What transfers at an edge, and what after it -/

/-- An edge in BUSY with `rst` = 0 transfers nothing (R20, R21). -/
theorem transfers_cons_busy (p : Pins) (ps : List Pins) (s t : State) (hs : s.phase = .busy) (he : edge p s = .next t) :
    accepted (p :: ps) s = accepted ps t ∧ responses (p :: ps) s = responses ps t := by
  rw [accepted_cons_next p ps s t he, responses_cons_next p ps s t he, cmdTransfers_eq_false p s (by simp [hs]),
    rspTransfers_eq_false p s (by simp [hs])]
  exact ⟨rfl, rfl⟩

theorem transfers_cons_command (p : Pins) (ps : List Pins) (s t : State) (hp : cmdTransfers p s = true)
    (ha : accept p.cmdData s = .next t) :
    accepted (p :: ps) s = p.cmdData :: accepted ps t ∧ responses (p :: ps) s = responses ps t := by
  have he := (edge_of_cmdTransfers p s hp).trans ha
  have hs := ((cmdTransfers_iff p s).1 hp).2.2
  rw [accepted_cons_next p ps s t he, responses_cons_next p ps s t he, hp, rspTransfers_eq_false p s (by simp [hs])]
  exact ⟨rfl, rfl⟩

theorem transfers_cons_response (p : Pins) (ps : List Pins) (s : State) (hp : rspTransfers p s = true) :
    accepted (p :: ps) s = accepted ps (takeResponse s)
      ∧ responses (p :: ps) s = s.rsp :: responses ps (takeResponse s) := by
  have he := edge_of_rspTransfers p s hp
  have hs := ((rspTransfers_iff p s).1 hp).2.2
  rw [accepted_cons_next p ps s _ he, responses_cons_next p ps s _ he, hp, cmdTransfers_eq_false p s (by simp [hs])]
  exact ⟨rfl, rfl⟩

/-! ### The edges of a command (R140) -/

/-- The pins of a host that takes a response as soon as there is one and offers the word c at every edge (R140). -/
def EagerPins (c : Word64) (p : Pins) : Prop :=
  p.rst = false ∧ p.rspReady = true ∧ p.cmdValid = true ∧ p.cmdData = c

/-- From DONE an eager host takes the response at the first edge and has its word accepted at the second. -/
theorem transfers_eager_of_done (c : Word64) (ps : List Pins) (s : State) (hs : s.phase = .done)
    (hps : ∀ p ∈ ps, EagerPins c p) (hl : ps.length ≤ 2) :
    accepted ps s = [c].take (ps.length - 1) ∧ responses ps s = [s.rsp].take ps.length := by
  match ps with
  | [] => exact ⟨rfl, rfl⟩
  | p :: qs =>
    rw [List.forall_mem_cons] at hps
    obtain ⟨⟨hr, hq, -, -⟩, hqs⟩ := hps
    obtain ⟨ha, hb⟩ := transfers_cons_response p qs s ((rspTransfers_iff p s).2 ⟨hr, hq, hs⟩)
    rw [ha, hb]
    match qs with
    | [] => exact ⟨rfl, rfl⟩
    | [q] =>
      obtain ⟨hr, -, hv, rfl⟩ := hqs q (List.mem_singleton_self q)
      obtain ⟨t, ht, -⟩ := accept_owes q.cmdData (takeResponse s)
      obtain ⟨ha, hb⟩ := transfers_cons_command q [] (takeResponse s) t ((cmdTransfers_iff q _).2 ⟨hr, hv, rfl⟩) ht
      rw [ha, hb]
      exact ⟨rfl, rfl⟩
    | _ :: _ :: _ => simp at hl

/-- The BUSY edges of a computing command transfer nothing and end with its answer in RSP. -/
theorem transfers_append_reached (ps qs : List Pins) (i : Instr) (m : Nat) (s : State) (hr : noReset ps)
    (hi : (checkInstr i).1 = .ok) (hm : m + ps.length = 5) (h : Reached i m s) :
    ∃ t, Reached i 5 t ∧ accepted (ps ++ qs) s = accepted qs t ∧ responses (ps ++ qs) s = responses qs t := by
  induction ps generalizing m s with
  | nil => exact ⟨s, hm ▸ h, rfl, rfl⟩
  | cons p ps ih =>
    rw [noReset, List.forall_mem_cons] at hr
    rw [List.length_cons] at hm
    obtain ⟨u, hu, hReached⟩ := edge_reached p i m s hr.1 hi (by omega) h
    obtain ⟨t, ht, ha, hb⟩ := ih (m + 1) u hr.2 (by omega) hReached
    obtain ⟨ha', hb'⟩ := transfers_cons_busy p (ps ++ qs) s u (h.busy (by omega)) hu
    exact ⟨t, ht, ha'.trans ha, hb'.trans hb⟩

/-- From the acceptance of a computing command at E0, an eager host takes its RESULT at E6 and has the next word accepted
at E7. -/
theorem transfers_eager_computing (c : Word64) (p : Pins) (ps : List Pins) (s : State) (hp : cmdTransfers p s = true)
    (hc : (check p.cmdData).1 = .ok) (hps : ∀ q ∈ ps, EagerPins c q) (h5 : 5 ≤ ps.length) (h7 : ps.length ≤ 7) :
    accepted (p :: ps) s = p.cmdData :: [c].take (ps.length - 6)
      ∧ responses (p :: ps) s = [result p.cmdData].take (ps.length - 5) := by
  obtain ⟨i, hd, hi⟩ := check_ok_decodes _ hc
  obtain ⟨ha, hb⟩ := transfers_cons_command p ps s _ hp (accept_of_ok _ s i hd hi)
  have hbusy : noReset (ps.take 5) := fun q hq => (hps q (List.mem_of_mem_take hq)).1
  have hlen : 0 + (ps.take 5).length = 5 := by rw [List.length_take]; omega
  obtain ⟨t, ht, ha', hb'⟩ :=
    transfers_append_reached (ps.take 5) (ps.drop 5) i 0 (start i s) hbusy hi hlen (reached_start i s)
  obtain ⟨ha'', hb''⟩ := transfers_eager_of_done c (ps.drop 5) t ht.phase (fun q hq => hps q (List.mem_of_mem_drop hq))
    (by rw [List.length_drop]; omega)
  rw [List.take_append_drop] at ha' hb'
  rw [List.length_drop, Nat.sub_sub] at ha''
  rw [List.length_drop, ht.rsp rfl, ← result_of_ok _ i hd hi] at hb''
  exact ⟨ha.trans (congrArg (p.cmdData :: ·) (ha'.trans ha'')), hb.trans (hb'.trans hb'')⟩

/-- From the acceptance of a word with an error at E0, an eager host takes its RESULT at E1 and has the next word accepted
at E2. -/
theorem transfers_eager_answered (c : Word64) (p : Pins) (ps : List Pins) (s : State) (hp : cmdTransfers p s = true)
    (hc : (check p.cmdData).1 ≠ .ok) (hps : ∀ q ∈ ps, EagerPins c q) (hl : ps.length ≤ 2) :
    accepted (p :: ps) s = p.cmdData :: [c].take (ps.length - 1)
      ∧ responses (p :: ps) s = [result p.cmdData].take ps.length := by
  obtain ⟨ha, hb⟩ := transfers_cons_command p ps s _ hp (accept_of_error _ s hc)
  obtain ⟨ha', hb'⟩ := transfers_eager_of_done c ps _ (answerError_phase ..) hps hl
  rw [answerError_rsp, ← result_of_error _ hc] at hb'
  exact ⟨ha.trans (congrArg (p.cmdData :: ·) ha'), hb.trans hb'⟩

/-- Settles O55: the first word transfers in IDLE, and what follows is the eager host's closed form at each length. -/
theorem edgesPerCommand : Obligations.EdgesPerCommand := by
  unfold Obligations.EdgesPerCommand
  intro c c' s ps hs hps first
  have hp : cmdTransfers first s = true := (cmdTransfers_iff first s).2 ⟨rfl, rfl, hs⟩
  refine ⟨fun hc => ?_, fun hc => ?_⟩
  · have h := transfers_eager_computing c' first ps s hp hc hps
    refine ⟨fun hl => ?_, fun hl => ?_, fun hl => ?_⟩ <;> rw [hl] at h <;> exact h (by decide) (by decide)
  · have h := transfers_eager_answered c' first ps s hp hc hps
    refine ⟨fun hl => ?_, fun hl => ?_, fun hl => ?_⟩ <;> rw [hl] at h <;> exact h (by decide)

end Sys2Proof.Machine
end

section
/-! PROOFS. Family other: decoding against encoding, what a step is, the run of the host's core, and the stops of the model.
The core's run takes its pins off the host's list while `runEdges` is given them; the two meet because an edge does the same
whatever the list holds (`edge_withHost`). -/

namespace Sys2Proof.Machine

/-! ### Decoding and encoding -/

/-- Settles O47: a word of a row is made up of the bits its row fixes and its operands as fields. -/
theorem decodeAndEncodeAgree : Obligations.DecodeAndEncodeAgree := ⟨decode_encode, encode_of_decode⟩

/-! ### A step and its pins -/

theorem advance_free (s : State) (h : s.host = []) : advance s = { s with drawn := s.drawn + 1 } := by simp [advance, h]

/-- A step whose pins the host's list gives. -/
theorem step_listed (s : State) (p : Pins) (ps : List Pins) (h : s.host = p :: ps) :
    step s = edge p { s with host := ps } := by
  rw [step, pinsNow_listed s p ps h, advance_listed s p ps h]

/-- Settles O10: `step` by definition, its pins and the state without them by the two cases of the host's list. -/
theorem stepIsOneEdge : Obligations.StepIsOneEdge :=
  ⟨fun _ => rfl, fun p ps s h => ⟨pinsNow_listed s p ps h, advance_listed s p ps h⟩,
    fun s h => ⟨pinsNow_free s h, advance_free s h⟩⟩

/-! ### A step that accepts a command -/

theorem accept_of_decode (c : Word64) (i : Instr) (s : State) (h : decode c = .ok i) : accept c s = exec i s := by
  simp only [accept, h]

theorem decode_of_decodeTableWord (nbits w : Nat) (i : Instr) (h : decodeTableWord nbits w = some i) :
    decode (wordOfTable nbits w) = .ok i := by
  unfold decodeTableWord at h
  split at h
  · next j hj => rw [hj, Option.some.inj h]
  · cases h

/-- A step in IDLE at which a command is offered is `exec` of it, its pins taken (R37). -/
theorem step_of_offered_command (s : State) (i : Instr) (hs : s.phase = .idle) (hr : (pinsNow s).rst = false)
    (hv : (pinsNow s).cmdValid = true) (hd : decode (pinsNow s).cmdData = .ok i) : step s = exec i (advance s) := by
  rw [step, edge_idle_command _ _ hr ((advance_phase s).trans hs) hv, accept_of_decode _ i _ hd]

/-- Settles O11: `withFetchWord` offers the word in IDLE, and taking the pins of that offer leaves s in IDLE. -/
theorem stepRunsDecodedCommand : Obligations.StepRunsDecodedCommand := by
  refine ⟨step_of_offered_command, fun s w i hw => ?_⟩
  have hd := decode_of_decodeTableWord 64 w i hw
  exact step_of_offered_command (s.withFetchWord 64 w) i rfl rfl rfl hd

/-! ### An edge does not read the host's list -/

/-- The state with another list of pins for the coming edges. -/
def withHost (l : List Pins) (s : State) : State := { s with host := l }

/-- The outcome with its next state changed; a stop stays what it is. -/
def mapNext (f : State → State) (o : Host.Outcome State Fault Refusal) : Host.Outcome State Fault Refusal :=
  match o with
  | .next s => .next (f s)
  | .fault r => .fault r
  | .refused r => .refused r

@[simp] theorem mapNext_next (f : State → State) (s : State) : mapNext f (.next s) = .next (f s) := rfl
@[simp] theorem mapNext_fault (f : State → State) (r : Fault) : mapNext f (.fault r) = .fault r := rfl
@[simp] theorem mapNext_refused (f : State → State) (r : Refusal) : mapNext f (.refused r) = .refused r := rfl

theorem start_withHost (l : List Pins) (i : Instr) (s : State) : start i (withHost l s) = withHost l (start i s) := by
  cases i <;> rfl

theorem accept_withHost (l : List Pins) (c : Word64) (s : State) :
    accept c (withHost l s) = mapNext (withHost l) (accept c s) := by
  by_cases hc : (check c).1 = .ok
  · obtain ⟨i, hd, hi⟩ := check_ok_decodes c hc
    rw [accept_of_ok c _ i hd hi, accept_of_ok c s i hd hi, mapNext_next, start_withHost]
  · rw [accept_of_error c _ hc, accept_of_error c s hc]
    rfl

theorem microStep_withHost (l : List Pins) (i : Fin 5) (s : State) :
    microStep i (withHost l s) = mapNext (withHost l) (microStep i s) := by
  simp only [microStep, decStep, apply_ite (mapNext (withHost l))]
  rfl

theorem finish_withHost (l : List Pins) (s : State) : finish (withHost l s) = mapNext (withHost l) (finish s) := by
  simp only [finish, apply_ite (mapNext (withHost l)), mapNext_next, apply_ite (withHost l)]
  rfl

theorem busyEdge_withHost (l : List Pins) (s : State) : busyEdge (withHost l s) = mapNext (withHost l) (busyEdge s) := by
  have hstep : (withHost l s).step = s.step := rfl
  unfold busyEdge
  rw [hstep]
  cases stepPlace s.step with
  | none => rfl
  | some i =>
    simp only [microStep_withHost]
    cases microStep i s with
    | next t =>
      simp only [mapNext_next, apply_ite (mapNext (withHost l)), ← finish_withHost]
      rfl
    | fault r => rfl
    | refused r => rfl

/-- What an edge does, and whether it stops, does not depend on the host's list, and no edge writes the list. -/
theorem edge_withHost (l : List Pins) (p : Pins) (s : State) :
    edge p (withHost l s) = mapNext (withHost l) (edge p s) := by
  cases hr : p.rst with
  | true => rw [edge_reset p (withHost l s) hr, edge_reset p s hr]; rfl
  | false =>
    cases hs : s.phase with
    | idle =>
      cases hv : p.cmdValid with
      | false => rw [edge_idle_quiet p (withHost l s) hr hs hv, edge_idle_quiet p s hr hs hv]; rfl
      | true => rw [edge_idle_command p (withHost l s) hr hs hv, edge_idle_command p s hr hs hv, accept_withHost]
    | busy => rw [edge_busy p (withHost l s) hr hs, edge_busy p s hr hs, busyEdge_withHost]
    | done =>
      cases hq : p.rspReady with
      | false => rw [edge_done_held p (withHost l s) hr hs hq, edge_done_held p s hr hs hq]; rfl
      | true => rw [edge_done_taken p (withHost l s) hr hs hq, edge_done_taken p s hr hs hq]; rfl

/-! ### The run of the host's core -/

/-- The core's run with a list of pins at the head of the host's list, whatever stands after it. -/
theorem coreRun_eq_runEdges (ps rest : List Pins) (s : State) :
    Host.Core.run core ps.length (withHost (ps ++ rest) s) = runEdges ps (withHost rest s) := by
  induction ps generalizing s with
  | nil => rfl
  | cons p ps ih =>
    have hstep : core.step (withHost (p :: ps ++ rest) s) = mapNext (withHost (ps ++ rest)) (edge p s) :=
      (step_listed (withHost (p :: ps ++ rest) s) p (ps ++ rest) rfl).trans (edge_withHost (ps ++ rest) p s)
    simp only [List.length_cons, Host.Core.run, runEdges, hstep, edge_withHost rest p s]
    cases edge p s with
    | next t => exact ih t
    | fault r => rfl
    | refused r => rfl

/-- Settles O12: by induction over the listed edges, an edge doing the same with the shorter list. -/
theorem coreRunIsTheEdges : Obligations.CoreRunIsTheEdges := by
  intro ps rest s hs
  have hself : withHost (ps ++ rest) s = s := hs ▸ rfl
  exact (congrArg _ hself.symm).trans (coreRun_eq_runEdges ps rest s)

/-! ### The stops of a BUSY edge (log entries 4 to 6) -/

theorem stepPlace_of_gt (x : BitVec 3) (h : 5 ≤ x.toNat) : stepPlace x = none := dif_neg (by omega)

theorem busyEdge_of_step_gt (s : State) (h : 5 ≤ s.step.toNat) : busyEdge s = .fault .stepOutOfRange := by
  simp only [busyEdge, stepPlace_of_gt s.step h]

theorem finish_of_bad_cnt (s : State) (h : cntFits s.op s.cnt = false) : finish s = .fault .cntOutOfRange := by
  simp only [finish, h, Bool.false_eq_true, if_false]

theorem busyEdge_dec_overflow (s : State) (i : Fin 5) (ho : s.op = 1) (hi : s.step.toNat = i.val)
    (hv : 2 ^ 33 ≤ hornerValue i s) : busyEdge s = .fault .accOutOfRange := by
  have h0 : ¬ s.op = 0 := by rw [ho]; decide
  simp only [busyEdge, (stepPlace_eq_some_iff s.step i).2 hi, microStep, if_neg h0, decStep, if_neg (not_lt.2 hv)]

theorem edge_of_step_gt (p : Pins) (s : State) (hr : p.rst = false) (hs : s.phase = .busy) (h : 5 ≤ s.step.toNat) :
    edge p s = .fault .stepOutOfRange :=
  (edge_busy p s hr hs).trans (busyEdge_of_step_gt s h)

/-- The fifth micro-step of ENC leaves CNT for the finish to stop at. -/
theorem edge_enc_bad_cnt (p : Pins) (s : State) (hr : p.rst = false) (hs : s.phase = .busy) (hi : s.step = 4)
    (ho : s.op = 0) (hc : cntFits s.op s.cnt = false) : edge p s = .fault .cntOutOfRange := by
  have hstep : s.step.toNat = (4 : Fin 5).val := by rw [hi]; rfl
  rw [edge_busy p s hr hs, busyEdge_enc s 4 ho hstep, if_pos rfl]
  exact finish_of_bad_cnt (countStep (encStep 4 s)) hc

/-- The fifth micro-step of DEC leaves CNT for the finish to stop at, when its value fits. -/
theorem edge_dec_bad_cnt (p : Pins) (s : State) (hr : p.rst = false) (hs : s.phase = .busy) (hi : s.step = 4)
    (ho : s.op = 1) (hc : cntFits s.op s.cnt = false) (hv : hornerValue 4 s < 2 ^ 33) :
    edge p s = .fault .cntOutOfRange := by
  have hstep : s.step.toNat = (4 : Fin 5).val := by rw [hi]; rfl
  rw [edge_busy p s hr hs, busyEdge_dec s 4 ho hstep hv, if_pos rfl]
  exact finish_of_bad_cnt (countStep (accumulate 4 s)) hc

theorem edge_dec_overflow (p : Pins) (s : State) (i : Fin 5) (hr : p.rst = false) (hs : s.phase = .busy)
    (ho : s.op = 1) (hi : s.step.toNat = i.val) (hv : 2 ^ 33 ≤ hornerValue i s) : edge p s = .fault .accOutOfRange :=
  (edge_busy p s hr hs).trans (busyEdge_dec_overflow s i ho hi hv)

/-! ### What can stop -/

theorem microStep_ne_refused (i : Fin 5) (s : State) (r : Refusal) : microStep i s ≠ .refused r := by
  unfold microStep decStep
  split
  · simp
  · split <;> simp

theorem finish_ne_refused (s : State) (r : Refusal) : finish s ≠ .refused r := by
  unfold finish
  split <;> simp

theorem busyEdge_ne_refused (s : State) (r : Refusal) : busyEdge s ≠ .refused r := by
  unfold busyEdge
  split
  · simp
  · split
    · split
      · exact finish_ne_refused _ r
      · simp
    · simp
    · next hm => exact absurd hm (microStep_ne_refused _ s _)

/-- An edge that does not answer is a BUSY edge without a reset. -/
theorem busy_of_no_answer (p : Pins) (s : State) (h : ∀ t, edge p s ≠ .next t) : p.rst = false ∧ s.phase = .busy := by
  cases hr : p.rst with
  | true => exact absurd (edge_reset p s hr) (h _)
  | false =>
    cases hs : s.phase with
    | idle =>
      obtain ⟨t, ht, -⟩ := edge_owes p [] s (.nothing hs)
      exact absurd ht (h t)
    | busy => exact ⟨rfl, rfl⟩
    | done =>
      cases hq : p.rspReady with
      | false => exact absurd (edge_done_held p s hr hs hq) (h _)
      | true => exact absurd (edge_done_taken p s hr hs hq) (h _)

theorem edge_ne_refused (p : Pins) (s : State) (r : Refusal) : edge p s ≠ .refused r := by
  intro h
  obtain ⟨hr, hs⟩ := busy_of_no_answer p s (by simp [h])
  exact busyEdge_ne_refused s r ((edge_busy p s hr hs).symm.trans h)

/-- A step that stops with a fault is a BUSY edge from a state outside the invariant. -/
theorem busy_outside_inv_of_step_fault (s : State) (f : Fault) (h : step s = .fault f) :
    (pinsNow s).rst = false ∧ s.phase = .busy ∧ ¬ StateInv s := by
  rw [step] at h
  obtain ⟨hr, hs⟩ := busy_of_no_answer (pinsNow s) (advance s) (by simp [h])
  refine ⟨hr, (advance_phase s).symm.trans hs, fun hinv => ?_⟩
  obtain ⟨t, ht⟩ := edge_answers_of_stateInv (pinsNow s) (advance s) ((stateInv_advance s).2 hinv)
  exact absurd (h.symm.trans ht) (by simp)

/-- Settles O18: each stop at its own BUSY edge, and no other stop: every other edge answers, as does every one in the
invariant, and no part of a BUSY edge refuses. -/
theorem stopsOnlyOutOfRange : Obligations.StopsOnlyOutOfRange :=
  ⟨edge_of_step_gt, edge_enc_bad_cnt, edge_dec_bad_cnt, edge_dec_overflow, busy_outside_inv_of_step_fault,
    fun s => edge_ne_refused (pinsNow s) (advance s)⟩

end Sys2Proof.Machine
end
